-- ==== Sys2Proof/Word.lean ====
section
/-! DEFINITION. The bit-vector types of the machine (10_state.md R20, R24 to R31; 30_encoding.md R77).
The hardware has no signed value (00_scope.md R10), so these are read as unsigned numbers throughout. -/

namespace Sys2Proof

/-- An 8-bit value: a general register, a timer, SP, a byte of memory (R20, R28, R30, R31, R33). -/
abbrev Byte := BitVec 8

/-- A 16-bit value: PC, I, a stack entry, an instruction word (R24, R25, R29, R75). -/
abbrev Word := BitVec 16

/-- A 4-bit field: a register index `x` or `y`, or the nibble constant `n` (R77). -/
abbrev Nibble := BitVec 4

/-- The 12-bit address field `nnn` (R77). -/
abbrev Addr := BitVec 12

end Sys2Proof
end

