-- ==== Sys2Proof/Syntax.lean ====
section
/-! DEFINITION. The 35 operation tags of the decoder's descriptor (30_encoding.md R80, R81, R82), one
constructor per row of spec/opcode_table.json and in its order. -/

namespace Sys2Proof

/-- One decoded instruction: the operation and exactly the operand fields of R81. -/
inductive Instr where
  /-- `00E0` CLS (R161). -/
  | cls
  /-- `00EE` RET (R102). -/
  | ret
  /-- `0NNN` SYS addr (R101). -/
  | sys (nnn : Addr)
  /-- `1NNN` JP addr (R103). -/
  | jp (nnn : Addr)
  /-- `2NNN` CALL addr (R104). -/
  | call (nnn : Addr)
  /-- `3XNN` SE Vx, byte (R105). -/
  | seImm (x : Nibble) (nn : Byte)
  /-- `4XNN` SNE Vx, byte (R106). -/
  | sneImm (x : Nibble) (nn : Byte)
  /-- `5XY0` SE Vx, Vy (R107). -/
  | seReg (x y : Nibble)
  /-- `6XNN` LD Vx, byte (R124). -/
  | ldImm (x : Nibble) (nn : Byte)
  /-- `7XNN` ADD Vx, byte (R125). -/
  | addImm (x : Nibble) (nn : Byte)
  /-- `8XY0` LD Vx, Vy (R126). -/
  | ldReg (x y : Nibble)
  /-- `8XY1` OR Vx, Vy (R127). -/
  | orReg (x y : Nibble)
  /-- `8XY2` AND Vx, Vy (R128). -/
  | andReg (x y : Nibble)
  /-- `8XY3` XOR Vx, Vy (R129). -/
  | xorReg (x y : Nibble)
  /-- `8XY4` ADD Vx, Vy (R131). -/
  | addReg (x y : Nibble)
  /-- `8XY5` SUB Vx, Vy (R132). -/
  | subReg (x y : Nibble)
  /-- `8XY6` SHR Vx, Vy (R135). -/
  | shrReg (x y : Nibble)
  /-- `8XY7` SUBN Vx, Vy (R133). -/
  | subnReg (x y : Nibble)
  /-- `8XYE` SHL Vx, Vy (R137). -/
  | shlReg (x y : Nibble)
  /-- `9XY0` SNE Vx, Vy (R108). -/
  | sneReg (x y : Nibble)
  /-- `ANNN` LD I, addr (R146). -/
  | ldI (nnn : Addr)
  /-- `BNNN` JP V0, addr, read as `BXNN` JP Vx, addr in modern mode (R109): `x` is `nnn[11:8]`. -/
  | jpOff (x : Nibble) (nnn : Addr)
  /-- `CXNN` RND Vx, byte (R138). -/
  | rnd (x : Nibble) (nn : Byte)
  /-- `DXYN` DRW Vx, Vy, nibble (R163). -/
  | drw (x y n : Nibble)
  /-- `EX9E` SKP Vx (R171). -/
  | skp (x : Nibble)
  /-- `EXA1` SKNP Vx (R172). -/
  | sknp (x : Nibble)
  /-- `FX07` LD Vx, DT (R175). -/
  | ldVxDt (x : Nibble)
  /-- `FX0A` LD Vx, K (R173). -/
  | ldVxK (x : Nibble)
  /-- `FX15` LD DT, Vx (R176). -/
  | ldDtVx (x : Nibble)
  /-- `FX18` LD ST, Vx (R177). -/
  | ldStVx (x : Nibble)
  /-- `FX1E` ADD I, Vx (R147). -/
  | addIVx (x : Nibble)
  /-- `FX29` LD F, Vx (R148). -/
  | ldFVx (x : Nibble)
  /-- `FX33` LD B, Vx (R149). -/
  | ldBVx (x : Nibble)
  /-- `FX55` LD [I], Vx (R151). -/
  | stRegs (x : Nibble)
  /-- `FX65` LD Vx, [I] (R152). -/
  | ldRegs (x : Nibble)
  deriving DecidableEq, Repr

end Sys2Proof
end

