-- ==== Sys2Proof/WellFormed.lean ====
section
/-! DEFINITION. Which terms of `Instr` are descriptors the decoder can give (30_encoding.md R81, R87).
Register and immediate fields have no illegal values (R87); two shapes are excluded because their word
belongs to another row or is read twice. -/

namespace Sys2Proof

/-- R86: SYS is "every word of family 0 other than `00E0` and `00EE`". -/
def sysAddrOk (nnn : Addr) : Bool := nnn != 0x0E0 && nnn != 0x0EE

/-- R109: the register field of `JP_off` is bits 11 to 8 of the same word, the top nibble of `nnn`. -/
def jpOffFieldsAgree (x : Nibble) (nnn : Addr) : Bool := x == nnn.extractLsb' 8 4

/-- The check on a decoded instruction. -/
def Instr.wf : Instr → Bool
  | .sys nnn => sysAddrOk nnn
  | .jpOff x nnn => jpOffFieldsAgree x nnn
  | .cls | .ret | .jp _ | .call _ | .seImm _ _ | .sneImm _ _ | .seReg _ _ | .ldImm _ _ | .addImm _ _
  | .ldReg _ _ | .orReg _ _ | .andReg _ _ | .xorReg _ _ | .addReg _ _ | .subReg _ _ | .shrReg _ _
  | .subnReg _ _ | .shlReg _ _ | .sneReg _ _ | .ldI _ | .rnd _ _ | .drw _ _ _ | .skp _ | .sknp _
  | .ldVxDt _ | .ldVxK _ | .ldDtVx _ | .ldStVx _ | .addIVx _ | .ldFVx _ | .ldBVx _ | .stRegs _
  | .ldRegs _ => true

end Sys2Proof
end

