-- ==== Sys2Proof/Decode.lean ====
section
/-! DEFINITION. Field extraction, the decode function and the encoder (30_encoding.md R76, R77, R79, R81,
R82, R83). Decoding is a function of the word alone (R81, R88). -/

namespace Sys2Proof

/-- The decoder's result (R82): one of the 35 operations, or `Unknown(w)`, which keeps the word. -/
inductive Decoded where
  | known (i : Instr)
  | unknown (w : Word)
  deriving DecidableEq, Repr

/-- `F = w[15:12]`, the family nibble (R77). -/
def fieldF (w : Word) : Nibble := w.extractLsb' 12 4
/-- `x = w[11:8]` (R77). -/
def fieldX (w : Word) : Nibble := w.extractLsb' 8 4
/-- `y = w[7:4]` (R77). -/
def fieldY (w : Word) : Nibble := w.extractLsb' 4 4
/-- `n = w[3:0]` (R77). -/
def fieldN (w : Word) : Nibble := w.extractLsb' 0 4
/-- `nn = w[7:0]` (R77). -/
def fieldNN (w : Word) : Byte := w.extractLsb' 0 8
/-- `nnn = w[11:0]` (R77). -/
def fieldNNN (w : Word) : Addr := w.extractLsb' 0 12

/-- Family 0, told apart by the whole low 12 bits (R79, R86). -/
def decodeFamily0 (w : Word) : Decoded :=
  if fieldNNN w = 0x0E0 then .known .cls
  else if fieldNNN w = 0x0EE then .known .ret
  else .known (.sys (fieldNNN w))

/-- Family 8, told apart by `n` (R79, R81, R84). -/
def decodeFamily8 (w : Word) : Decoded :=
  if fieldN w = 0x0 then .known (.ldReg (fieldX w) (fieldY w))
  else if fieldN w = 0x1 then .known (.orReg (fieldX w) (fieldY w))
  else if fieldN w = 0x2 then .known (.andReg (fieldX w) (fieldY w))
  else if fieldN w = 0x3 then .known (.xorReg (fieldX w) (fieldY w))
  else if fieldN w = 0x4 then .known (.addReg (fieldX w) (fieldY w))
  else if fieldN w = 0x5 then .known (.subReg (fieldX w) (fieldY w))
  else if fieldN w = 0x6 then .known (.shrReg (fieldX w) (fieldY w))
  else if fieldN w = 0x7 then .known (.subnReg (fieldX w) (fieldY w))
  else if fieldN w = 0xE then .known (.shlReg (fieldX w) (fieldY w))
  else .unknown w

/-- Family E, told apart by `nn` (R79, R81, R84). -/
def decodeFamilyE (w : Word) : Decoded :=
  if fieldNN w = 0x9E then .known (.skp (fieldX w))
  else if fieldNN w = 0xA1 then .known (.sknp (fieldX w))
  else .unknown w

/-- Family F, told apart by `nn` (R79, R81, R84). -/
def decodeFamilyF (w : Word) : Decoded :=
  if fieldNN w = 0x07 then .known (.ldVxDt (fieldX w))
  else if fieldNN w = 0x0A then .known (.ldVxK (fieldX w))
  else if fieldNN w = 0x15 then .known (.ldDtVx (fieldX w))
  else if fieldNN w = 0x18 then .known (.ldStVx (fieldX w))
  else if fieldNN w = 0x1E then .known (.addIVx (fieldX w))
  else if fieldNN w = 0x29 then .known (.ldFVx (fieldX w))
  else if fieldNN w = 0x33 then .known (.ldBVx (fieldX w))
  else if fieldNN w = 0x55 then .known (.stRegs (fieldX w))
  else if fieldNN w = 0x65 then .known (.ldRegs (fieldX w))
  else .unknown w

/-- The decode function, total on all 65536 words (R79, R81). Families 5 and 9 require `n = 0` (R79). The last
arm is family F, the one nibble value left. -/
def decode (w : Word) : Decoded :=
  match (fieldF w).toNat with
  | 0x0 => decodeFamily0 w
  | 0x1 => .known (.jp (fieldNNN w))
  | 0x2 => .known (.call (fieldNNN w))
  | 0x3 => .known (.seImm (fieldX w) (fieldNN w))
  | 0x4 => .known (.sneImm (fieldX w) (fieldNN w))
  | 0x5 => if fieldN w = 0 then .known (.seReg (fieldX w) (fieldY w)) else .unknown w
  | 0x6 => .known (.ldImm (fieldX w) (fieldNN w))
  | 0x7 => .known (.addImm (fieldX w) (fieldNN w))
  | 0x8 => decodeFamily8 w
  | 0x9 => if fieldN w = 0 then .known (.sneReg (fieldX w) (fieldY w)) else .unknown w
  | 0xA => .known (.ldI (fieldNNN w))
  | 0xB => .known (.jpOff (fieldX w) (fieldNNN w))
  | 0xC => .known (.rnd (fieldX w) (fieldNN w))
  | 0xD => .known (.drw (fieldX w) (fieldY w) (fieldN w))
  | 0xE => decodeFamilyE w
  | _ => decodeFamilyF w

/-- Two consecutive bytes as an instruction word: the byte at the lower address is the high byte (R50). -/
def wordOfBytes (hi lo : Byte) : Word := hi ++ lo

/-- The byte of a word that lies at the lower address (R50). -/
def highByte (w : Word) : Byte := w.extractLsb' 8 8

/-- The byte of a word that lies at the next address (R50). -/
def lowByte (w : Word) : Byte := w.extractLsb' 0 8

/-- The decoder on the two bytes of an instruction, lower address first (R50, R75). -/
def decodeBytes (hi lo : Byte) : Decoded := decode (wordOfBytes hi lo)

/-! The encoder, from the format table R76 and the patterns of R80. -/

/-- Format `NNN`. -/
def packNNN (f : Nibble) (nnn : Addr) : Word := f ++ nnn
/-- Format `XNN`; format `X` is this with the sub-opcode byte as `nn`. -/
def packXNN (f x : Nibble) (nn : Byte) : Word := f ++ (x ++ nn : BitVec 12)
/-- Format `XYN`; format `XY` is this with the sub-opcode nibble as `n`. -/
def packXYN (f x y n : Nibble) : Word := f ++ (x ++ (y ++ n : BitVec 8) : BitVec 12)

/-- The instruction word of an operation (R83: "each tag fixes the bits that are not operand fields"). For
`jpOff` the address field holds the register field's bits too (R76, R109). -/
def encode : Instr → Word
  | .cls => 0x00E0
  | .ret => 0x00EE
  | .sys nnn => packNNN 0x0 nnn
  | .jp nnn => packNNN 0x1 nnn
  | .call nnn => packNNN 0x2 nnn
  | .seImm x nn => packXNN 0x3 x nn
  | .sneImm x nn => packXNN 0x4 x nn
  | .seReg x y => packXYN 0x5 x y 0x0
  | .ldImm x nn => packXNN 0x6 x nn
  | .addImm x nn => packXNN 0x7 x nn
  | .ldReg x y => packXYN 0x8 x y 0x0
  | .orReg x y => packXYN 0x8 x y 0x1
  | .andReg x y => packXYN 0x8 x y 0x2
  | .xorReg x y => packXYN 0x8 x y 0x3
  | .addReg x y => packXYN 0x8 x y 0x4
  | .subReg x y => packXYN 0x8 x y 0x5
  | .shrReg x y => packXYN 0x8 x y 0x6
  | .subnReg x y => packXYN 0x8 x y 0x7
  | .shlReg x y => packXYN 0x8 x y 0xE
  | .sneReg x y => packXYN 0x9 x y 0x0
  | .ldI nnn => packNNN 0xA nnn
  | .jpOff _ nnn => packNNN 0xB nnn
  | .rnd x nn => packXNN 0xC x nn
  | .drw x y n => packXYN 0xD x y n
  | .skp x => packXNN 0xE x 0x9E
  | .sknp x => packXNN 0xE x 0xA1
  | .ldVxDt x => packXNN 0xF x 0x07
  | .ldVxK x => packXNN 0xF x 0x0A
  | .ldDtVx x => packXNN 0xF x 0x15
  | .ldStVx x => packXNN 0xF x 0x18
  | .addIVx x => packXNN 0xF x 0x1E
  | .ldFVx x => packXNN 0xF x 0x29
  | .ldBVx x => packXNN 0xF x 0x33
  | .stRegs x => packXNN 0xF x 0x55
  | .ldRegs x => packXNN 0xF x 0x65

/-- The first instruction word of `w`, whose bits are numbered as spec/opcode_table.json numbers them and
whose bits from `nbits` up are 0. Every instruction is one 16-bit word (R75). -/
def tableWord (nbits w : Nat) : Word := BitVec.ofNat 16 (w % 2 ^ nbits)

/-- The instruction the decoder reads from a word of spec/opcode_table.json: the word is laid out high byte
first (R50) and its two bytes are decoded. `none` where the decoder answers `Unknown`. -/
def decodeTableWord (nbits w : Nat) : Option Instr :=
  match decodeBytes (highByte (tableWord nbits w)) (lowByte (tableWord nbits w)) with
  | .known i => some i
  | .unknown _ => none

end Sys2Proof
end

