-- ==== Sys2Proof/Config.lean ====
section
/-! DEFINITION. What is fixed at construction (00_scope.md R4 to R7, 10_state.md R37), and the one free
value of the machine: the byte the randomness collaborator answers (41_load_arith.md R138). -/

namespace Sys2Proof

/-- `QUIRK`, the quirk mode (R5). -/
inductive Quirk where
  | legacy
  | modern
  deriving DecidableEq, Repr

/-- `OOB_MODE`, the policy for an address above 0xFFF (R6). -/
inductive OobMode where
  | wrap
  | fault
  deriving DecidableEq, Repr

/-- The configuration record CFG (R5, R6, R7, R37). It is chosen at construction and never changes.
`fontBase` is bounded so that the 80 font bytes end at or below 0x200 (R7: `FONT_BASE + 80 <= 0x200`). -/
structure Config where
  /-- `QUIRK`. -/
  quirk : Quirk
  /-- `OOB_MODE`. -/
  oob : OobMode
  /-- `INSTR_HZ`, a positive rate, here in whole hertz (DESIGN CHOICE, safe: log 6); no rule reads it (R5). -/
  instrHz : Nat
  /-- `FONT_BASE`. -/
  fontBase : Fin 433
  /-- `FONT_DATA`, 5 bytes a glyph, glyph 0 first. -/
  fontData : Vector Byte 80
  deriving DecidableEq, Repr

/-- `INSTR_HZ` is "a positive rate" (R5); the other fields are legal by their types. -/
abbrev Config.wf (cfg : Config) : Prop := 0 < cfg.instrHz

/-- FREE VALUE (R7, R138; 93_implementation_defined.md U7): the byte the randomness collaborator supplies
for the `k`-th draw. It has no body, so nothing can be proved of its values. DESIGN CHOICE: log 3. -/
opaque Config.randByte : Nat → Byte

/-- `MEM_SIZE` (R4). -/
abbrev memSize : Nat := 4096

/-- `PROG_BASE` (R4). -/
abbrev progBase : Nat := 0x200

/-- `PROG_MAX` (R4): 0x1000 − 0x200. -/
abbrev progMax : Nat := 3584

end Sys2Proof
end

