-- ==== Sys2Proof/Machine/Defaults.lean ====
section
/-! DEFINITION. The spec's default configuration: the values it takes where one must be picked (00_scope.md
R5 to R7, 10_state.md R36, 95_test_vectors.md's conventions). -/

namespace Sys2Proof.Machine

/-- The default `FONT_DATA`, the table of R36, one glyph of 5 bytes a line. -/
def defaultFontData : Vector Byte 80 :=
  #v[0xF0, 0x90, 0x90, 0x90, 0xF0,
     0x20, 0x60, 0x20, 0x20, 0x70,
     0xF0, 0x10, 0xF0, 0x80, 0xF0,
     0xF0, 0x10, 0xF0, 0x10, 0xF0,
     0x90, 0x90, 0xF0, 0x10, 0x10,
     0xF0, 0x80, 0xF0, 0x10, 0xF0,
     0xF0, 0x80, 0xF0, 0x90, 0xF0,
     0xF0, 0x10, 0x20, 0x40, 0x40,
     0xF0, 0x90, 0xF0, 0x90, 0xF0,
     0xF0, 0x90, 0xF0, 0x10, 0xF0,
     0xF0, 0x90, 0xF0, 0x90, 0x90,
     0xE0, 0x90, 0xE0, 0x90, 0xE0,
     0xF0, 0x80, 0x80, 0x80, 0xF0,
     0xE0, 0x90, 0x90, 0x90, 0xE0,
     0xF0, 0x80, 0xF0, 0x80, 0xF0,
     0xF0, 0x80, 0xF0, 0x80, 0x80]

/-- The configuration of `State.reset`: `OOB_MODE = wrap` (R6), `INSTR_HZ = 700` (R5), the default font
(R36), and `QUIRK = legacy`, for which the source gives no default (R5) and which is the convention of
95_test_vectors.md. DESIGN CHOICE, unsafe for claims about reset alone: log 2. -/
def defaultConfig : Config where
  quirk := .legacy
  oob := .wrap
  instrHz := 700
  fontBase := 0x050
  fontData := defaultFontData

end Sys2Proof.Machine
end

