-- ==== Sys2Proof/Machine/State.lean ====
section
/-! DEFINITION. The state of the machine (10_state.md R20 to R41), the five error kinds (60_exceptions.md
R185), the state after construction (R40, R225) and State.reset. -/

namespace Sys2Proof.Machine

/-- MEM (R33), as the list of the bytes that differ from what an unlisted address reads as
(`Memory.background`, Ops.lean), by rising address. -/
abbrev Memory := List Host.Cell

/-- FB (R34, R160): 32 rows from the top, each 64 pixels from the left; `true` is lit. -/
abbrev Display := Vector (Vector Bool 64) 32

/-- Everything the spec gives the machine (R20 to R40), the configuration of its construction (R37), and
one field of the model's own, `draws`. -/
structure State where
  /-- CFG (R37). A parameter of the construction, held here because `step` takes a state alone; nothing
  writes it. DESIGN CHOICE, safe: log 1. -/
  cfg : Config
  /-- V0 to VF (R20); `v[15]` is VF, the flag (R22). -/
  v : Vector Byte 16
  /-- I, the index register (R24). -/
  i : Word
  /-- PC (R25). -/
  pc : Word
  /-- SP, the number of return addresses on the stack (R28). -/
  sp : Byte
  /-- STACK (R29). -/
  stack : Vector Word 16
  /-- DT, the delay timer (R30). -/
  dt : Byte
  /-- ST, the sound timer (R31). -/
  st : Byte
  /-- MEM (R33). -/
  mem : Memory
  /-- FB, the display buffer (R34). -/
  fb : Display
  /-- KEYS, the 16 key-pressed flags (R35). -/
  keys : Vector Bool 16
  /-- The MODEL's own field, not the spec's: how many bytes the randomness collaborator has been asked for.
  It picks the next free byte `Config.randByte draws`. DESIGN CHOICE: log 3. -/
  draws : Nat
  deriving DecidableEq, Repr

/-- The error taxonomy, closed, exactly five kinds (R185). All are what the spec says the machine reports, so
stopping on them is faithful; none changes any state (R192). -/
inductive Fault where
  /-- Raised by `load_program` alone, with the length offered (R186). Safe: the spec's own error. -/
  | loadError (len : Nat)
  /-- Raised by a step whose word decodes to `Unknown` or to SYS, with the word (R187). Safe: the spec's own error. -/
  | unknownOpcode (w : Word)
  /-- Raised by `2NNN` with 16 return addresses on the stack, with PC of the call (R188). Safe: the spec's own error. -/
  | stackOverflow (pc : Word)
  /-- Raised by `00EE` on an empty stack, with PC of the return (R189). Safe: the spec's own error. -/
  | stackUnderflow (pc : Word)
  /-- Raised by an access above 0xFFF when `OOB_MODE = fault`, with the offending integer address (R190). Safe: the spec's own error. -/
  | outOfBoundsAccess (a : Nat)
  deriving DecidableEq, Repr

/-- Why the model gives a step no meaning. -/
inductive Refusal where
  /-- An arm of `exec` without a meaning; no arm of this model is one. Safe. -/
  | notModelled (mnemonic : String)
  /-- Raised by `2NNN` and `00EE` in a state whose SP is above 16, which R28 says never occurs and whose
  stack entry does not exist (R29). No reachable state is one. DESIGN CHOICE, safe: log 4. -/
  | illegalStackPointer (sp : Byte)
  deriving DecidableEq, Repr

/-- The state after construction with a configuration, the only reset (R40, R225). Memory lists nothing: an
unlisted address reads as the byte construction leaves there. -/
def State.construct (cfg : Config) : State where
  cfg := cfg
  v := Vector.replicate 16 0
  i := 0
  pc := 0x200
  sp := 0
  stack := Vector.replicate 16 0
  dt := 0
  st := 0
  mem := []
  fb := Vector.replicate 32 (Vector.replicate 64 false)
  keys := Vector.replicate 16 false
  draws := 0

/-- The machine right after reset, with the default configuration (log 2). -/
def State.reset : State := State.construct defaultConfig

end Sys2Proof.Machine
end

