-- ==== Sys2Proof/Machine/Ops.lean ====
section
/-! DEFINITION. The named operations over registers, memory, stack, display and keypad, and the one
operation by which a step raises an error (00_scope.md R12, 20_memory.md R56 to R59, 60_exceptions.md R192). -/

namespace Sys2Proof.Machine

/-- What a step answers. -/
abbrev Result := Host.Outcome State Fault Refusal

/-! ## Raising an error (R192, R194) -/

/-- `raise <Error>(info)` (R12): the step's result is the error. The machine has no trap entry, no vector and
no return from one (R194, R195): no register is saved, PC stays, and the state is the one before the step
(R192), so the fault carries the error alone. -/
def raise (f : Fault) : Result := .fault f

/-- A computation that may raise, as the result of the step. -/
def orRaise : Except Fault State → Result
  | .ok t => .next t
  | .error f => raise f

/-- The code of an error (R185). -/
def Fault.code : Fault → Nat
  | .loadError _ => 1
  | .unknownOpcode _ => 2
  | .stackOverflow _ => 3
  | .stackUnderflow _ => 4
  | .outOfBoundsAccess _ => 5

/-- The information word of an error (R185). -/
def Fault.info : Fault → Nat
  | .loadError len => len
  | .unknownOpcode w => w.toNat
  | .stackOverflow pc => pc.toNat
  | .stackUnderflow pc => pc.toNat
  | .outOfBoundsAccess a => a

/-! ## Registers (R20, R24, R25, R30, R31) -/

/-- `V[x]`. -/
def State.reg (s : State) (x : Nibble) : Byte := s.v[x.toNat]'(x.isLt)

/-- `V[x] <- b`. -/
def State.setReg (s : State) (x : Nibble) (b : Byte) : State :=
  { s with v := s.v.set x.toNat b x.isLt }

/-- The flag register VF is general register 15 (R22). -/
def regF : Nibble := 0xF

/-- A flag write stores the full 8-bit value 0x00 or 0x01 (R22). -/
def flagByte (b : Bool) : Byte := if b then 1 else 0

/-- `V[0xF] <- flag`. -/
def State.setFlag (s : State) (b : Bool) : State := s.setReg regF (flagByte b)

/-- `I <- a`. -/
def State.setI (s : State) (a : Word) : State := { s with i := a }

/-- `PC <- a`. -/
def State.setPc (s : State) (a : Word) : State := { s with pc := a }

/-- `DT <- b`. -/
def State.setDt (s : State) (b : Byte) : State := { s with dt := b }

/-- `ST <- b`. -/
def State.setSt (s : State) (b : Byte) : State := { s with st := b }

/-- The sequential successor, `PC <- (PC + 2) mod 65536` (R26, R100). -/
def State.advance (s : State) : State := s.setPc (s.pc + 2)

/-- A conditional skip: `PC + 4` if the condition holds, else `PC + 2`, modulo 65536 (R26, R110). -/
def State.skipIf (s : State) (c : Bool) : State := s.setPc (s.pc + if c then 4 else 2)

/-! ## Memory (R33, R50 to R60) -/

/-- What an address that memory does not list reads as: the byte construction leaves there, `FONT_DATA` in the
80 bytes from `FONT_BASE` and 0 elsewhere (R36, R40). -/
def Memory.background (cfg : Config) (a : Nat) : Byte :=
  if cfg.fontBase.val ≤ a then (cfg.fontData[a - cfg.fontBase.val]?).getD 0 else 0

/-- The listed byte at an address, if there is one. -/
def Memory.find : Memory → Nat → Option Byte
  | [], _ => none
  | (b, w) :: m, a => if a = b then some w else Memory.find m a

/-- `MEM[a]`. -/
def Memory.read (cfg : Config) (m : Memory) (a : Nat) : Byte :=
  (Memory.find m a).getD (Memory.background cfg a)

/-- The list with `v` listed at `a`, in its place by address. -/
def Memory.put : Memory → Nat → Byte → Memory
  | [], a, v => [(a, v)]
  | (b, w) :: m, a, v =>
    if a < b then (a, v) :: (b, w) :: m
    else if a = b then (a, v) :: m
    else (b, w) :: Memory.put m a v

/-- The list with nothing listed at `a`. -/
def Memory.unlist (m : Memory) (a : Nat) : Memory := m.filter fun c => c.1 != a

/-- `MEM[a] <- v`, keeping the canonical form. -/
def Memory.write (cfg : Config) (m : Memory) (a : Nat) (v : Byte) : Memory :=
  if v = Memory.background cfg a then Memory.unlist m a else Memory.put m a v

/-- The canonical form: addresses strictly rising and inside 0x000 to 0xFFF, and no entry equal to what an
unlisted address reads as. -/
abbrev Memory.wf (cfg : Config) (m : Memory) : Prop :=
  m.Pairwise (fun c d => c.1 < d.1) ∧ ∀ c ∈ m, c.1 < memSize ∧ c.2 ≠ Memory.background cfg c.1

/-- One byte of the state's memory, by its address 0x000 to 0xFFF. -/
def State.byteAt (s : State) (a : Nat) : Byte := Memory.read s.cfg s.mem a

/-- One byte written at an address 0x000 to 0xFFF. -/
def State.setByte (s : State) (a : Nat) (v : Byte) : State :=
  { s with mem := Memory.write s.cfg s.mem a v }

/-- `EA(a)` (R56): the address itself up to 0xFFF; above it, reduced modulo the memory size in `wrap` mode and
`OutOfBoundsAccess(a)` in `fault` mode. `a` is an integer, not truncated to 16 bits. -/
def effAddr (cfg : Config) (a : Nat) : Except Fault Nat :=
  if a ≤ 0xFFF then .ok a
  else match cfg.oob with
    | .wrap => .ok (a % memSize)
    | .fault => .error (.outOfBoundsAccess a)

/-- `EA(base)`, `EA(base + 1)`, … for `n` bytes, every address checked before any is used, so that the error is
the first offending address by ascending offset (R53, R57, R193). -/
def effAddrs (cfg : Config) : Nat → Nat → Except Fault (List Nat)
  | _, 0 => .ok []
  | base, n + 1 =>
    match effAddr cfg base with
    | .error f => .error f
    | .ok a =>
      match effAddrs cfg (base + 1) n with
      | .error f => .error f
      | .ok as => .ok (a :: as)

/-- `MemRead(base + k, 1)` for `k = 0 … n − 1` (R58, R60). -/
def State.readRun (s : State) (base n : Nat) : Except Fault (List Byte) :=
  match effAddrs s.cfg base n with
  | .error f => .error f
  | .ok as => .ok (as.map s.byteAt)

/-- The bytes written one after another at the addresses, ascending (R53, R59). -/
def State.setBytes (s : State) : List Nat → List Byte → State
  | a :: as, v :: vs => (s.setByte a v).setBytes as vs
  | _, _ => s

/-- `MemWrite(base + k, 1, vs[k])` for every byte of `vs`; nothing is written if an address is out of range
(R57, R59). -/
def State.writeRun (s : State) (base : Nat) (vs : List Byte) : Except Fault State :=
  match effAddrs s.cfg base vs.length with
  | .error f => .error f
  | .ok as => .ok (s.setBytes as vs)

/-- Instruction fetch, `MemRead(PC, 2)`: the byte at `EA(PC)` is the high byte, the byte at `EA(PC + 1)` the low
byte; PC is not changed and its parity does not matter (R50, R52, R58, R89). -/
def fetch (s : State) : Except Fault Word :=
  match effAddr s.cfg s.pc.toNat with
  | .error f => .error f
  | .ok a =>
    match effAddr s.cfg (s.pc.toNat + 1) with
    | .error f => .error f
    | .ok b => .ok (wordOfBytes (s.byteAt a) (s.byteAt b))

/-- The registers `V[0]` to `V[x]`, in order (R151). -/
def State.regsUpTo (s : State) (x : Nibble) : List Byte := s.v.toList.take (x.toNat + 1)

/-- `V[k] <- bs[k]` for every byte of `bs`, ascending; the other registers keep their values (R152). -/
def State.setRegsFrom0 (s : State) (bs : List Byte) : State :=
  { s with v := Vector.ofFn fun k : Fin 16 => (bs[k.val]?).getD s.v[k] }

/-! ## Stack (R28, R29, D16) -/

/-- `STACK[SP] <- a`, then `SP <- SP + 1`; asked for only with SP below 16 (R104). -/
def State.push (s : State) (a : Word) : State :=
  { s with stack := s.stack.setIfInBounds s.sp.toNat a, sp := s.sp + 1 }

/-- `STACK[j]` for `j` in 0..15. -/
def State.stackAt (s : State) (j : Nat) : Option Word := s.stack[j]?

/-- `SP <- b`. -/
def State.setSp (s : State) (b : Byte) : State := { s with sp := b }

/-! ## Display (R34, R160 to R165) -/

/-- `FB[px, py]`. -/
def Display.pixel (fb : Display) (px : Fin 64) (py : Fin 32) : Bool := fb[py][px]

/-- `FB[px, py] <- FB[px, py] ^ 1`. -/
def Display.toggle (fb : Display) (px : Fin 64) (py : Fin 32) : Display :=
  fb.set py.val (fb[py].set px.val (!fb[py][px]))

/-- Every pixel dark (R161). -/
def Display.clear : Display := Vector.replicate 32 (Vector.replicate 64 false)

/-- `FB <- d`. -/
def State.setDisplay (s : State) (d : Display) : State := { s with fb := d }

/-- A sprite being drawn: the display so far, and whether a lit pixel was erased so far. -/
abbrev Drawing := Display × Bool

/-- One 1 bit of a sprite, column `c` of row `r` of a sprite at `(x0, y0)` (R163, R164): both coordinates are taken
modulo the display size, the pixel is toggled, and a pixel that was lit is a collision. -/
def drawPixel (x0 y0 r c : Nat) (d : Drawing) : Drawing :=
  (d.1.toggle (Fin.ofNat 64 (x0 + c)) (Fin.ofNat 32 (y0 + r)),
    d.2 || d.1.pixel (Fin.ofNat 64 (x0 + c)) (Fin.ofNat 32 (y0 + r)))

/-- Columns `c = 0 … 7` of row `r`: bit `7 − c` of the row's byte tells whether the pixel is toggled (R162, R163). -/
def drawRow (x0 y0 r : Nat) (b : Byte) (d : Drawing) : Drawing :=
  (List.range 8).foldl (fun d c => if b.getLsbD (7 - c) then drawPixel x0 y0 r c d else d) d

/-- The rows from `r` on, top row first (R163). -/
def drawRows (x0 y0 : Nat) : Nat → List Byte → Drawing → Drawing
  | _, [], d => d
  | r, b :: bs, d => drawRows x0 y0 (r + 1) bs (drawRow x0 y0 r b d)

/-! ## Keypad (R35, R209) -/

/-- `KEYS[k]`. -/
def State.key (s : State) (k : Nibble) : Bool := s.keys[k.toNat]'(k.isLt)

/-- The least `k` with `KEYS[k] = 1`, if a key is pressed (R173). -/
def State.lowestKey (s : State) : Option Nat := s.keys.toList.findIdx? id

/-! ## Random byte (R138, R210) -/

/-- One more byte has been asked of the randomness collaborator (the model's own count: log 3). -/
def State.countDraw (s : State) : State := { s with draws := s.draws + 1 }

/-! ## Placing an instruction where the next step fetches (the interface's `withFetchWord`: log 8) -/

/-- A state from whose PC an instruction can be fetched: `s` itself, unless the fetch would raise
`OutOfBoundsAccess` (R89); then PC is moved to the entry point 0x200. -/
def State.fetchable (s : State) : State :=
  match effAddrs s.cfg s.pc.toNat 2 with
  | .ok _ => s
  | .error _ => s.setPc 0x200

/-- The word stored at `EA(PC)` and `EA(PC + 1)`, high byte first (R89). -/
def State.placeWord (s : State) (w : Word) : State :=
  (s.setByte (s.pc.toNat % memSize) (highByte w)).setByte ((s.pc.toNat + 1) % memSize) (lowByte w)

end Sys2Proof.Machine
end

