-- ==== Sys2Proof/Machine/Operands.lean ====
section
/-! DEFINITION. The operand forms that are not a plain register or immediate: the quirk-selected operands, the
low-nibble selections, the font address and the decimal digits. -/

namespace Sys2Proof.Machine

/-- `zext_16(nnn)` (30_encoding.md R78, 40_control_flow.md R100). -/
def target (nnn : Addr) : Word := nnn.setWidth 16

/-- `ShiftSource(x, y)` (R134): `V[y]` in legacy mode, `V[x]` in modern mode. -/
def shiftSource (s : State) (x y : Nibble) : Byte :=
  match s.cfg.quirk with
  | .legacy => s.reg y
  | .modern => s.reg x

/-- The offset of `BNNN` (R109): `V[0]` in legacy mode, `V[x]` in modern mode. -/
def jumpOffset (s : State) (x : Nibble) : Byte :=
  match s.cfg.quirk with
  | .legacy => s.reg 0
  | .modern => s.reg x

/-- I after `FX55` and `FX65` (R150): `(I + x + 1) mod 65536` in legacy mode, unchanged in modern mode. -/
def indexAfterRun (s : State) (x : Nibble) : Word :=
  match s.cfg.quirk with
  | .legacy => s.i + BitVec.ofNat 16 (x.toNat + 1)
  | .modern => s.i

/-- The low 4 bits of a register, a key number or a font digit (R148, R171, R172). -/
def lowNibble (b : Byte) : Nibble := b.extractLsb' 0 4

/-- The address of the font glyph of a digit, `FONT_BASE + 5 * d` (R36, R148). -/
def glyphAddr (cfg : Config) (d : Nibble) : Word := BitVec.ofNat 16 (cfg.fontBase.val + 5 * d.toNat)

/-- The three decimal digits of a byte, hundreds first (R149). -/
def decimalDigits (b : Byte) : List Byte :=
  [BitVec.ofNat 8 (b.toNat / 100), BitVec.ofNat 8 (b.toNat / 10 % 10), BitVec.ofNat 8 (b.toNat % 10)]

end Sys2Proof.Machine
end

