-- ==== Sys2Proof/Machine/ControlFlow.lean ====
section
/-! DEFINITION. The control-flow instructions (40_control_flow.md R100 to R111). `s.pc` is the address the
instruction was fetched from (10_state.md R25). -/

namespace Sys2Proof.Machine

/-- `0NNN` SYS (R101): always raises `UnknownOpcode(w)`, with `w` the full instruction word. -/
def execSys (nnn : Addr) (_s : State) : Result := raise (.unknownOpcode (encode (.sys nnn)))

/-- `00EE` RET (R102): `StackUnderflow(PC)` on an empty stack; else pops the last return address into PC. With SP
above 16 the entry does not exist (R29) and the model gives no meaning (log 4). -/
def execRet (s : State) : Result :=
  if s.sp = 0 then raise (.stackUnderflow s.pc)
  else match s.stackAt (s.sp - 1).toNat with
    | some a => .next ((s.setSp (s.sp - 1)).setPc a)
    | none => .refused (.illegalStackPointer s.sp)

/-- `1NNN` JP (R103). -/
def execJp (nnn : Addr) (s : State) : Result := .next (s.setPc (target nnn))

/-- `2NNN` CALL (R104): `StackOverflow(PC)` with 16 return addresses on the stack; else pushes `PC + 2` and jumps.
SP above 16 is no state of the machine (R28; log 4). -/
def execCall (nnn : Addr) (s : State) : Result :=
  if s.sp = 16 then raise (.stackOverflow s.pc)
  else if s.sp.toNat < 16 then .next ((s.push (s.pc + 2)).setPc (target nnn))
  else .refused (.illegalStackPointer s.sp)

/-- `3XNN` SE Vx, byte (R105). -/
def execSeImm (x : Nibble) (nn : Byte) (s : State) : Result := .next (s.skipIf (s.reg x == nn))

/-- `4XNN` SNE Vx, byte (R106). -/
def execSneImm (x : Nibble) (nn : Byte) (s : State) : Result := .next (s.skipIf (s.reg x != nn))

/-- `5XY0` SE Vx, Vy (R107). -/
def execSeReg (x y : Nibble) (s : State) : Result := .next (s.skipIf (s.reg x == s.reg y))

/-- `9XY0` SNE Vx, Vy (R108). -/
def execSneReg (x y : Nibble) (s : State) : Result := .next (s.skipIf (s.reg x != s.reg y))

/-- `BNNN` JP V0, addr, `BXNN` JP Vx, addr in modern mode (R109): the base is all 12 bits of `nnn` in both modes. -/
def execJpOff (x : Nibble) (nnn : Addr) (s : State) : Result :=
  .next (s.setPc (target nnn + (jumpOffset s x).setWidth 16))

end Sys2Proof.Machine
end

