-- ==== Sys2Proof/Machine/DisplayDraw.lean ====
section
/-! DEFINITION. The display instructions (43_display.md R160 to R166), the only two that write the display. -/

namespace Sys2Proof.Machine

/-- `00E0` CLS (R161). -/
def execCls (s : State) : Result := .next (s.setDisplay Display.clear).advance

/-- `DXYN` DRW Vx, Vy, nibble (R163): the `n` sprite bytes are read first, then every 1 bit is XORed in with
wraparound, then VF is written with the collision, 0 when there is none. -/
def execDrw (x y n : Nibble) (s : State) : Result :=
  match s.readRun s.i.toNat n.toNat with
  | .error f => raise f
  | .ok rows =>
    let d := drawRows (s.reg x).toNat (s.reg y).toNat 0 rows (s.fb, false)
    .next ((s.setDisplay d.1).setFlag d.2).advance

end Sys2Proof.Machine
end

