-- ==== Sys2Proof/Machine/IndexMemory.lean ====
section
/-! DEFINITION. Index-register and memory instructions (42_index_memory.md R145 to R153). The three that access
memory check every address before they change anything (R153). -/

namespace Sys2Proof.Machine

/-- `ANNN` LD I, addr (R146). -/
def execLdI (nnn : Addr) (s : State) : Result := .next (s.setI (target nnn)).advance

/-- `FX1E` ADD I, Vx (R147): 16-bit sum, no flag. -/
def execAddIVx (x : Nibble) (s : State) : Result := .next (s.setI (s.i + (s.reg x).setWidth 16)).advance

/-- `FX29` LD F, Vx (R148): the glyph address of the low nibble of `V[x]`; no memory access. -/
def execLdFVx (x : Nibble) (s : State) : Result :=
  .next (s.setI (glyphAddr s.cfg (lowNibble (s.reg x)))).advance

/-- `FX33` LD B, Vx (R149): the three decimal digits of `V[x]` at I, I + 1, I + 2. -/
def execLdBVx (x : Nibble) (s : State) : Result :=
  match s.writeRun s.i.toNat (decimalDigits (s.reg x)) with
  | .error f => raise f
  | .ok t => .next t.advance

/-- `FX55` LD [I], Vx (R151): `V[0]` to `V[x]` stored from I up, then the index quirk (R150). -/
def execStRegs (x : Nibble) (s : State) : Result :=
  match s.writeRun s.i.toNat (s.regsUpTo x) with
  | .error f => raise f
  | .ok t => .next (t.setI (indexAfterRun s x)).advance

/-- `FX65` LD Vx, [I] (R152): `V[0]` to `V[x]` loaded from I up, then the index quirk (R150). -/
def execLdRegs (x : Nibble) (s : State) : Result :=
  match s.readRun s.i.toNat (x.toNat + 1) with
  | .error f => raise f
  | .ok bs => .next ((s.setRegsFrom0 bs).setI (indexAfterRun s x)).advance

end Sys2Proof.Machine
end

