-- ==== Sys2Proof/Machine/KeypadTimers.lean ====
section
/-! DEFINITION. Keypad and timer instructions (44_keypad_timers.md R170 to R177). None can raise an error. -/

namespace Sys2Proof.Machine

/-- `EX9E` SKP Vx (R171): the key number is the low nibble of `V[x]`. -/
def execSkp (x : Nibble) (s : State) : Result := .next (s.skipIf (s.key (lowNibble (s.reg x))))

/-- `EXA1` SKNP Vx (R172). -/
def execSknp (x : Nibble) (s : State) : Result := .next (s.skipIf (!s.key (lowNibble (s.reg x))))

/-- `FX0A` LD Vx, K (R173, R174): with no key pressed nothing changes and PC stays; else the least pressed key's
number goes to `V[x]`. -/
def execLdVxK (x : Nibble) (s : State) : Result :=
  match s.lowestKey with
  | none => .next s
  | some k => .next (s.setReg x (BitVec.ofNat 8 k)).advance

/-- `FX07` LD Vx, DT (R175). -/
def execLdVxDt (x : Nibble) (s : State) : Result := .next (s.setReg x s.dt).advance

/-- `FX15` LD DT, Vx (R176). -/
def execLdDtVx (x : Nibble) (s : State) : Result := .next (s.setDt (s.reg x)).advance

/-- `FX18` LD ST, Vx (R177). -/
def execLdStVx (x : Nibble) (s : State) : Result := .next (s.setSt (s.reg x)).advance

end Sys2Proof.Machine
end

