-- ==== Sys2Proof/Machine/Flags.lean ====
section
/-! DEFINITION. Every result and flag the arithmetic computes (41_load_arith.md R121, R131 to R137): a pair of
the 8-bit result and the flag, computed on unbounded integers and narrowed at the end. -/

namespace Sys2Proof.Machine

/-- `8XY4` (R131): the low 8 bits of the sum; the flag is 1 exactly when the true sum exceeds 255. -/
def addWithCarry (a b : Byte) : Byte × Bool :=
  (BitVec.ofNat 8 (a.toNat + b.toNat), decide (a.toNat + b.toNat > 255))

/-- `7XNN` (R125): the low 8 bits of the sum. -/
def addModulo (a b : Byte) : Byte := BitVec.ofNat 8 (a.toNat + b.toNat)

/-- `a − b` (R121, R132, R133): the low 8 bits of the true difference; the flag is 1 exactly when no borrow
occurs, `a >= b`. -/
def subNoBorrow (a b : Byte) : Byte × Bool :=
  (BitVec.ofInt 8 ((a.toNat : Int) - (b.toNat : Int)), decide (a.toNat ≥ b.toNat))

/-- `8XY6` (R135): one position right, 0 shifted in; the flag is bit 0 of the source. -/
def shiftRightOut (s : Byte) : Byte × Bool := (s >>> 1, s.getLsbD 0)

/-- `8XYE` (R137): one position left, 0 shifted in; the flag is bit 7 of the source. -/
def shiftLeftOut (s : Byte) : Byte × Bool := (s <<< 1, s.getLsbD 7)

/-- The write order of R122: `V[x]` first, the flag last, so that with `x = 0xF` the flag is what stays. -/
def State.setRegFlag (s : State) (x : Nibble) (p : Byte × Bool) : State := (s.setReg x p.1).setFlag p.2

end Sys2Proof.Machine
end

