-- ==== Sys2Proof/Machine/LoadArith.lean ====
section
/-! DEFINITION. Register load, arithmetic, logic, shift and random instructions (41_load_arith.md R120 to R138).
All read their operands from the state before the step, and end with `PC <- PC + 2` (R122). -/

namespace Sys2Proof.Machine

/-- `6XNN` LD Vx, byte (R124). -/
def execLdImm (x : Nibble) (nn : Byte) (s : State) : Result := .next (s.setReg x nn).advance

/-- `7XNN` ADD Vx, byte (R125): no flag. -/
def execAddImm (x : Nibble) (nn : Byte) (s : State) : Result :=
  .next (s.setReg x (addModulo (s.reg x) nn)).advance

/-- `8XY0` LD Vx, Vy (R126): no flag (R130). -/
def execLdReg (x y : Nibble) (s : State) : Result := .next (s.setReg x (s.reg y)).advance

/-- `8XY1` OR Vx, Vy (R127): no flag (R130). -/
def execOrReg (x y : Nibble) (s : State) : Result := .next (s.setReg x (s.reg x ||| s.reg y)).advance

/-- `8XY2` AND Vx, Vy (R128): no flag (R130). -/
def execAndReg (x y : Nibble) (s : State) : Result := .next (s.setReg x (s.reg x &&& s.reg y)).advance

/-- `8XY3` XOR Vx, Vy (R129): no flag (R130). -/
def execXorReg (x y : Nibble) (s : State) : Result := .next (s.setReg x (s.reg x ^^^ s.reg y)).advance

/-- `8XY4` ADD Vx, Vy (R131): VF = carry. -/
def execAddReg (x y : Nibble) (s : State) : Result :=
  .next (s.setRegFlag x (addWithCarry (s.reg x) (s.reg y))).advance

/-- `8XY5` SUB Vx, Vy (R132): `V[x] − V[y]`, VF = no borrow. -/
def execSubReg (x y : Nibble) (s : State) : Result :=
  .next (s.setRegFlag x (subNoBorrow (s.reg x) (s.reg y))).advance

/-- `8XY7` SUBN Vx, Vy (R133): `V[y] − V[x]`, VF = no borrow. -/
def execSubnReg (x y : Nibble) (s : State) : Result :=
  .next (s.setRegFlag x (subNoBorrow (s.reg y) (s.reg x))).advance

/-- `8XY6` SHR Vx, Vy (R134, R135): the source is quirk-selected, VF = bit 0 of it. -/
def execShrReg (x y : Nibble) (s : State) : Result :=
  .next (s.setRegFlag x (shiftRightOut (shiftSource s x y))).advance

/-- `8XYE` SHL Vx, Vy (R134, R137): the source is quirk-selected, VF = bit 7 of it. -/
def execShlReg (x y : Nibble) (s : State) : Result :=
  .next (s.setRegFlag x (shiftLeftOut (shiftSource s x y))).advance

/-- `CXNN` RND Vx, byte (R138) with the byte `r` the randomness collaborator answers: any byte. -/
def execRndWith (r : Byte) (x : Nibble) (nn : Byte) (s : State) : Result :=
  .next (s.setReg x (r &&& nn)).countDraw.advance

/-- `CXNN` RND Vx, byte (R138): one free byte is asked for per execution, whatever `nn` is (log 3). -/
def execRnd (x : Nibble) (nn : Byte) (s : State) : Result :=
  execRndWith (Config.randByte s.draws) x nn s

end Sys2Proof.Machine
end

