-- ==== Sys2Proof/Machine/Step.lean ====
section
/-! DEFINITION. The step cycle (30_encoding.md R89, R90), and the placing of an instruction where the next step
fetches. -/

namespace Sys2Proof.Machine

/-- `step()` (R90): one fetch-decode-execute cycle. It ticks no timer (R90, D17). A fault leaves the state as it was
(60_exceptions.md R192). -/
def step (s : State) : Host.Outcome State Fault Refusal :=
  match fetch s with
  | .error f => raise f
  | .ok w =>
    match decode w with
    | .unknown u => raise (.unknownOpcode u)
    | .known i => exec i s

/-- `s` with an instruction word of spec/opcode_table.json stored at `EA(PC)` and `EA(PC + 1)`, so that `step` fetches
it next. PC moves to 0x200 only where the fetch would raise. It stands for the load of a program: log 8. -/
def State.withFetchWord (s : State) (nbits w : Nat) : State :=
  s.fetchable.placeWord (tableWord nbits w)

end Sys2Proof.Machine
end

