-- ==== Sys2Proof/Machine/HostCalls.lean ====
section
/-! DEFINITION. The other agents of the machine (00_scope.md R9): the timer driver's `tick`, the input collaborator's
`set_key`, the ROM loader's `load_program`, the host's reads, and any sequence of host calls
(60_exceptions.md R201 to R217, 70_reset_and_hazards.md R225 to R232). -/

namespace Sys2Proof.Machine

/-- A timer after one tick: one less while above 0, clamped at 0 (R201). -/
def countDown (b : Byte) : Byte := if b.toNat > 0 then b - 1 else b

/-- `tick()` (R201): both timers, independently, and nothing else. -/
def State.tick (s : State) : State := (s.setDt (countDown s.dt)).setSt (countDown s.st)

/-- `set_key(k, pressed)` (R208). The host has no move with a key number above 15 (R217; log 10). -/
def State.setKey (s : State) (k : Nibble) (pressed : Bool) : State :=
  { s with keys := s.keys.set k.toNat pressed k.isLt }

/-- The bytes of a program image written from an address up (R228). -/
def State.loadBytes (s : State) : Nat → List Byte → State
  | _, [] => s
  | a, b :: bs => (s.setByte a b).loadBytes (a + 1) bs

/-- `load_program(bytes)` (R228, R229): `LoadError(len)` if longer than 3584 bytes, with nothing written; else the bytes
go to 0x200 and up and nothing else changes. The spec gives it a meaning only between construction and the first
step (log 9). -/
def loadProgram (bytes : List Byte) (s : State) : Result :=
  if bytes.length > progMax then raise (.loadError bytes.length)
  else .next (s.loadBytes progBase bytes)

/-- Boot order (R230): construct with a configuration, then load the program. -/
def boot (cfg : Config) (bytes : List Byte) : Result := loadProgram bytes (State.construct cfg)

/-- The calls the host may make after boot, in any order and number (R217, D17). -/
inductive HostCall where
  | step
  | tick
  | setKey (k : Nibble) (pressed : Bool)
  deriving DecidableEq, Repr

/-- What the core gives back for a call (R217). -/
inductive Reply where
  /-- `ok(cycles)` of a step (R91). -/
  | ok (cycles : Nat)
  /-- The error a step returns instead of `ok` (R194). -/
  | error (f : Fault)
  /-- `tick` and `set_key` give nothing back. -/
  | done
  /-- The model gives the step no meaning. -/
  | noMeaning (r : Refusal)
  deriving DecidableEq, Repr

/-- One host call: the state after it and the reply. A step that raises leaves the state exactly as it was, and the host
may call again (R192, R195); a successful step reports `cycles = 1` (R91). -/
def State.call (s : State) : HostCall → State × Reply
  | .tick => (s.tick, .done)
  | .setKey k p => (s.setKey k p, .done)
  | .step =>
    match Sys2Proof.Machine.step s with
    | .next t => (t, .ok 1)
    | .fault f => (s, .error f)
    | .refused r => (s, .noMeaning r)

/-- The state after a sequence of host calls, which never overlap (R9). -/
def State.after (s : State) : List HostCall → State
  | [] => s
  | c :: cs => (s.call c).1.after cs

/-- The replies to a sequence of host calls, in order. -/
def State.replies (s : State) : List HostCall → List Reply
  | [] => []
  | c :: cs => (s.call c).2 :: (s.call c).1.replies cs

/-- The core's sound output, `tone = (ST != 0)` (R203). -/
def State.tone (s : State) : Bool := s.st != 0

/-- The sound-timer port (R207). -/
def State.soundTimerPort (s : State) : Byte := s.st

/-- The display port's dimensions, `DISP_W` and `DISP_H` (R206). -/
def State.displayDims (_s : State) : Nat × Nat := (64, 32)

/-- The display port's pixel read, `FB[px, py]` (R206). -/
def State.pixel (s : State) (px : Fin 64) (py : Fin 32) : Bool := Display.pixel s.fb px py

end Sys2Proof.Machine
end

