-- ==== Sys2Proof/Safety.lean ====
section
/-! DEFINITION. The terms in which claims about the machine are stated: the invariant of its states, what an instruction
leaves unchanged, the pixels a sprite covers, the accesses that are in range, and what a sequence of host calls does to a
timer. -/

namespace Sys2Proof.Machine

/-- The states of the machine: the configuration is legal (00_scope.md R5), SP is in 0..16 (10_state.md R28, R32) and
memory is in canonical form. The other fields are legal by their types. -/
abbrev State.Inv (s : State) : Prop := s.cfg.wf ∧ s.sp.toNat ≤ 16 ∧ Memory.wf s.cfg s.mem

/-- The parts of the state an instruction may change. The configuration (R37) and the keypad (R35) are not among them: no
instruction changes either. -/
inductive Part where
  /-- V0 to VF. -/
  | regs
  /-- I. -/
  | index
  /-- PC. -/
  | pc
  /-- SP and STACK. -/
  | stack
  /-- DT. -/
  | delay
  /-- ST. -/
  | sound
  /-- MEM. -/
  | mem
  /-- FB. -/
  | display
  /-- The model's count of random bytes asked for. -/
  | draws
  deriving DecidableEq, Repr

/-- `t` agrees with `s` in everything but the named parts. Memory is read byte by byte, the stack entry by entry, the display
pixel by pixel. -/
structure UnchangedBut (parts : List Part) (s t : State) : Prop where
  cfg : t.cfg = s.cfg
  keys : ∀ k, t.key k = s.key k
  regs : Part.regs ∉ parts → ∀ k, t.reg k = s.reg k
  index : Part.index ∉ parts → t.i = s.i
  pc : Part.pc ∉ parts → t.pc = s.pc
  stack : Part.stack ∉ parts → t.sp = s.sp ∧ ∀ j, t.stackAt j = s.stackAt j
  delay : Part.delay ∉ parts → t.dt = s.dt
  sound : Part.sound ∉ parts → t.st = s.st
  mem : Part.mem ∉ parts → ∀ a, t.byteAt a = s.byteAt a
  display : Part.display ∉ parts → ∀ px py, t.pixel px py = s.pixel px py
  draws : Part.draws ∉ parts → t.draws = s.draws

/-- The `n` bytes from I on can be accessed: always in `wrap` mode, and in `fault` mode when every address `I + k` is at most
0xFFF (20_memory.md R56, R57). -/
abbrev RunInRange (s : State) (n : Nat) : Prop :=
  s.cfg.oob = .wrap ∨ ∀ k, k < n → s.i.toNat + k ≤ 0xFFF

/-- `I + k` is the first of the `n` addresses from I on that is out of range, in `fault` mode (R57, R193). -/
abbrev FirstOutOfRange (s : State) (n k : Nat) : Prop :=
  s.cfg.oob = .fault ∧ k < n ∧ 0xFFF < s.i.toNat + k ∧ ∀ j, j < k → s.i.toNat + j ≤ 0xFFF

/-- A 1 bit of the sprite that `DXYN` draws lands on the display pixel `(px, py)`: column `c` of row `r`, whose byte is at
`EA(I + r)`, with wraparound in both directions (43_display.md R162, R164). -/
def SpriteCovers (s : State) (x y n : Nibble) (px : Fin 64) (py : Fin 32) : Prop :=
  ∃ r c a, r < n.toNat ∧ c < 8 ∧ effAddr s.cfg (s.i.toNat + r) = .ok a ∧ (s.byteAt a).getLsbD (7 - c) = true ∧
    px.val = ((s.reg x).toNat + c) % 64 ∧ py.val = ((s.reg y).toNat + r) % 32

/-- Every pixel is dark. -/
def AllDark (s : State) : Prop := ∀ px py, s.pixel px py = false

/-- The instructions whose destination is the general register `k`, and those that write VF as the flag (10_state.md R21,
R23). -/
def MayWriteReg : Instr → Nibble → Prop
  | .ldImm x _, k | .addImm x _, k | .ldReg x _, k | .orReg x _, k | .andReg x _, k | .xorReg x _, k
  | .rnd x _, k | .ldVxDt x, k | .ldVxK x, k => k = x
  | .addReg x _, k | .subReg x _, k | .shrReg x _, k | .subnReg x _, k | .shlReg x _, k => k = x ∨ k = regF
  | .drw _ _ _, k => k = regF
  | .ldRegs x, k => k.toNat ≤ x.toNat
  | _, _ => False

/-- The instructions whose effect depends on `QUIRK` (00_scope.md R5). -/
def readsQuirk : Instr → Bool
  | .shrReg _ _ | .shlReg _ _ | .jpOff _ _ | .stRegs _ | .ldRegs _ => true
  | _ => false

/-- The same state constructed with another quirk mode. -/
def State.withQuirk (s : State) (q : Quirk) : State := { s with cfg := { s.cfg with quirk := q } }

/-- The instructions that set PC themselves, conditionally or not (10_state.md R26). -/
def setsPcItself : Instr → Bool
  | .jp _ | .call _ | .ret | .jpOff _ _ | .seImm _ _ | .sneImm _ _ | .seReg _ _ | .sneReg _ _ | .skp _ | .sknp _
  | .ldVxK _ => true
  | _ => false

/-- The instructions that access memory as data (20_memory.md R60). -/
def accessesMemory : Instr → Bool
  | .drw _ _ _ | .ldBVx _ | .stRegs _ | .ldRegs _ => true
  | _ => false

/-- PC addresses a `1NNN` whose target is its own address, the conventional end of a program (70_reset_and_hazards.md R232). -/
def AtJumpToSelf (s : State) : Prop := ∃ nnn, fetch s = .ok (encode (.jp nnn)) ∧ target nnn = s.pc

/-- The instruction the next step runs, if its fetch and decode give one. -/
def nextInstr (s : State) : Option Instr :=
  match fetch s with
  | .error _ => none
  | .ok w => match decode w with
    | .known i => some i
    | .unknown _ => none

/-- No step of a sequence of host calls from `s` runs an instruction that satisfies `bad`. -/
def NeverRuns (bad : Instr → Prop) : State → List HostCall → Prop
  | _, [] => True
  | s, c :: cs => (c = .step → ∀ i, nextInstr s = some i → ¬ bad i) ∧ NeverRuns bad (s.call c).1 cs

/-- How many of the calls are ticks. -/
def tickCount (cs : List HostCall) : Nat := cs.count .tick

/-- A state is safe to step when the step answers a next state: it raises no error and the model gives it a meaning. -/
def StepSafe (s : State) : Prop := ∃ t, step s = .next t

end Sys2Proof.Machine
end

