-- ==== Sys2Proof/Certificates/Slice0/Obligations.lean ====
section
/-! DEFINITION. The statements about the machine, from the numbered rules of the spec. Where a clause rests on a decision the
spec marks as its own (D<n>, log 11), on what it marks as general knowledge (G<n>, log 12) or on a choice of the model (log <n>), the
docstring says so. -/

open Sys2Proof Sys2Proof.Machine

/-! ## Encoding -/

/-- R83, for all 35 operations: the decoder reads back every operand of every well-formed instruction. -/
def Obligations.DecodeOfEncodeIsTheInstruction : Prop :=
  ∀ i : Instr, i.wf = true → decode (encode i) = .known i

/-- R83: a word that decodes to a known operation is the word that operation encodes to, and the operation is well formed. -/
def Obligations.EncodeOfDecodeIsTheWord : Prop :=
  ∀ (w : Word) (i : Instr), decode w = .known i → i.wf = true ∧ encode i = w

/-- R84 (derived there by enumeration; D6): the words that decode to `Unknown` are exactly those of its table, and the word is
kept. -/
def Obligations.UnknownWordsAreTheListedOnes : Prop :=
  ∀ w u : Word, decode w = .unknown u ↔ u = w ∧
    ((fieldF w = 0x5 ∧ fieldN w ≠ 0) ∨
     (fieldF w = 0x8 ∧ fieldN w ∈ ([0x8, 0x9, 0xA, 0xB, 0xC, 0xD, 0xF] : List Nibble)) ∨
     (fieldF w = 0x9 ∧ fieldN w ≠ 0) ∨
     (fieldF w = 0xE ∧ fieldNN w ∉ ([0x9E, 0xA1] : List Byte)) ∨
     (fieldF w = 0xF ∧ fieldNN w ∉ ([0x07, 0x0A, 0x15, 0x18, 0x1E, 0x29, 0x33, 0x55, 0x65] : List Byte)))

/-- Words written out from the patterns of R80, one or more of each format, decode to what they stand for. -/
def Obligations.SampleWordsDecodeAsTheSpecSays : Prop :=
  decode 0x00E0 = .known .cls ∧ decode 0x00EE = .known .ret ∧ decode 0x0FFF = .known (.sys 0xFFF) ∧
  decode 0x1ABC = .known (.jp 0xABC) ∧ decode 0x4B34 = .known (.sneImm 0xB 0x34) ∧
  decode 0x8AB7 = .known (.subnReg 0xA 0xB) ∧ decode 0xB123 = .known (.jpOff 0x1 0x123) ∧
  decode 0xD123 = .known (.drw 0x1 0x2 0x3) ∧ decode 0xE1A1 = .known (.sknp 0x1) ∧
  decode 0xF155 = .known (.stRegs 0x1) ∧ decode 0x5AB1 = .unknown 0x5AB1

/-! ## The step cycle -/

/-- R90: when the two bytes at `EA(PC)` and `EA(PC + 1)`, high byte first, decode to an instruction, the step is that
instruction's execution at this state; nothing is added around it. -/
def Obligations.StepRunsTheDecodedInstruction : Prop :=
  ∀ (s : State) (a b : Nat) (i : Instr), effAddr s.cfg s.pc.toNat = .ok a → effAddr s.cfg (s.pc.toNat + 1) = .ok b →
    decodeBytes (s.byteAt a) (s.byteAt b) = .known i → step s = exec i s

/-- R89: the fetched word in both modes, and the two errors of a fetch in `fault` mode. -/
def Obligations.FetchReadsTheWordAtPcOrRaises : Prop :=
  ∀ s : State,
    (s.cfg.oob = .wrap → ∃ w, fetch s = .ok w ∧
      w.toNat = (s.byteAt (s.pc.toNat % 4096)).toNat * 256 + (s.byteAt ((s.pc.toNat + 1) % 4096)).toNat) ∧
    (s.cfg.oob = .fault → s.pc.toNat ≤ 0xFFE → ∃ w, fetch s = .ok w ∧
      w.toNat = (s.byteAt s.pc.toNat).toNat * 256 + (s.byteAt (s.pc.toNat + 1)).toNat) ∧
    (s.cfg.oob = .fault → 0xFFF < s.pc.toNat → step s = .fault (.outOfBoundsAccess s.pc.toNat)) ∧
    (s.cfg.oob = .fault → s.pc.toNat = 0xFFF → step s = .fault (.outOfBoundsAccess 0x1000))

/-- R187, R84, R101 (that SYS raises is the spec's decision D5): a step raises `UnknownOpcode(w)` exactly when the fetched word
`w` decodes to `Unknown` or to SYS. -/
def Obligations.UnknownOpcodeIsRaisedExactly : Prop :=
  ∀ (s : State) (w : Word), step s = .fault (.unknownOpcode w) ↔
    fetch s = .ok w ∧ (decode w = .unknown w ∨ ∃ nnn, decode w = .known (.sys nnn))

/-! ## Construction, the invariant -/

/-- R40, R36, for every configuration: the state construction leaves. The values of PC, STACK, DT, ST and KEYS are the spec's own
inference or decision D15; `draws = 0` is not the spec's and is not stated (log 3). -/
def Obligations.ConstructionLeavesTheStatedValues : Prop :=
  ∀ cfg : Config, let s := State.construct cfg
    s.cfg = cfg ∧ (∀ k, s.reg k = 0) ∧ s.i = 0 ∧ s.pc = 0x200 ∧ s.sp = 0 ∧ (∀ j, j < 16 → s.stackAt j = some 0) ∧
    s.dt = 0 ∧ s.st = 0 ∧ s.tone = false ∧ AllDark s ∧ (∀ k, s.key k = false) ∧
    (∀ d : Fin 80, s.byteAt (cfg.fontBase.val + d.val) = cfg.fontData[d]) ∧
    (∀ a, a < cfg.fontBase.val ∨ cfg.fontBase.val + 80 ≤ a → s.byteAt a = 0)

/-- The state after reset is a legal state of the machine (R28, R40). -/
def Obligations.ResetMeetsTheInvariant : Prop := State.reset.Inv

/-- R28 ("It never holds a value above 16"), and memory keeps its canonical form: a step from any legal state leaves a legal
state. -/
def Obligations.StepKeepsTheInvariant : Prop :=
  ∀ s t : State, s.Inv → step s = .next t → t.Inv

/-- R28, R217: after booting with any legal configuration and any image, and after any host calls in any order, the state is
legal. -/
def Obligations.HostCallsKeepTheInvariant : Prop :=
  ∀ (cfg : Config) (bytes : List Byte) (s : State) (cs : List HostCall), cfg.wf → boot cfg bytes = .next s →
    (s.after cs).Inv

/-- R82, R185: from a legal state a step always has a meaning: a next state or one of the spec's errors. -/
def Obligations.StepFromLegalStateNeverRefuses : Prop :=
  ∀ (s : State) (r : Refusal), s.Inv → step s ≠ .refused r

/-! ## Control flow -/

/-- R103 (the pattern `1NNN` is G4). -/
def Obligations.JpSetsPcToTheTarget : Prop :=
  ∀ (nnn : Addr) (s : State), ∃ t, exec (.jp nnn) s = .next t ∧ t.pc.toNat = nnn.toNat ∧ UnchangedBut [.pc] s t

/-- R102 (that `00EE` is the return is G2): RET raises on an empty stack; else it pops the most recent return address into PC, and
the popped entry keeps its value in STACK. -/
def Obligations.RetPopsOrUnderflows : Prop :=
  ∀ s : State,
    (s.sp.toNat = 0 → exec .ret s = .fault (.stackUnderflow s.pc)) ∧
    (1 ≤ s.sp.toNat → s.sp.toNat ≤ 16 → ∃ t, exec .ret s = .next t ∧ t.sp.toNat = s.sp.toNat - 1 ∧
      s.stackAt (s.sp.toNat - 1) = some t.pc ∧ (∀ j, t.stackAt j = s.stackAt j) ∧ UnchangedBut [.pc, .stack] s t)

/-- R104 (that `2NNN` is the call and saves `PC + 2` is G3, G19; where in STACK it goes is the spec's decision D16): CALL raises
at depth 16; else it pushes the address of the next instruction and jumps, and no other stack entry changes. -/
def Obligations.CallPushesOrOverflows : Prop :=
  ∀ (nnn : Addr) (s : State),
    (s.sp.toNat = 16 → exec (.call nnn) s = .fault (.stackOverflow s.pc)) ∧
    (s.sp.toNat < 16 → ∃ t, exec (.call nnn) s = .next t ∧ t.sp.toNat = s.sp.toNat + 1 ∧ t.pc.toNat = nnn.toNat ∧
      (∃ ra, t.stackAt s.sp.toNat = some ra ∧ ra.toNat = (s.pc.toNat + 2) % 65536) ∧
      (∀ j, j ≠ s.sp.toNat → t.stackAt j = s.stackAt j) ∧ UnchangedBut [.pc, .stack] s t)

/-- R188, R189: over all instructions, the two stack errors are raised by exactly `2NNN` at depth 16 and `00EE` at depth 0, with
PC of the instruction. -/
def Obligations.StackErrorsAreRaisedExactly : Prop :=
  ∀ (i : Instr) (s : State) (a : Word),
    (exec i s = .fault (.stackOverflow a) ↔ (∃ nnn, i = .call nnn) ∧ s.sp.toNat = 16 ∧ a = s.pc) ∧
    (exec i s = .fault (.stackUnderflow a) ↔ i = .ret ∧ s.sp.toNat = 0 ∧ a = s.pc)

/-- R104, R102, R29: whatever runs between a call and its return, nested calls and returns too, if SP is again as the call left it
and the call's own stack entry holds what the call pushed, the return goes to the instruction after the call and restores SP. The
entries at or above SP may hold anything: they are never read. -/
def Obligations.ReturnGoesBackBehindTheCall : Prop :=
  ∀ (nnn : Addr) (s t u : State), exec (.call nnn) s = .next t → u.sp = t.sp →
    u.stackAt s.sp.toNat = t.stackAt s.sp.toNat →
    ∃ v, exec .ret u = .next v ∧ v.pc = s.pc + 2 ∧ v.sp = s.sp

/-- R105, R106 (both G5): the immediate skips go to `PC + 4` when their condition holds and to `PC + 2` else, and change nothing
but PC. -/
def Obligations.ImmediateSkipsTestTheRegister : Prop :=
  ∀ (x : Nibble) (nn : Byte) (s : State),
    (∃ t, exec (.seImm x nn) s = .next t ∧
      t.pc.toNat = (s.pc.toNat + if (s.reg x).toNat = nn.toNat then 4 else 2) % 65536 ∧ UnchangedBut [.pc] s t) ∧
    (∃ t, exec (.sneImm x nn) s = .next t ∧
      t.pc.toNat = (s.pc.toNat + if (s.reg x).toNat = nn.toNat then 2 else 4) % 65536 ∧ UnchangedBut [.pc] s t)

/-- R107, R108 (both G5): the register skips, likewise. -/
def Obligations.RegisterSkipsCompareTheRegisters : Prop :=
  ∀ (x y : Nibble) (s : State),
    (∃ t, exec (.seReg x y) s = .next t ∧
      t.pc.toNat = (s.pc.toNat + if (s.reg x).toNat = (s.reg y).toNat then 4 else 2) % 65536 ∧ UnchangedBut [.pc] s t) ∧
    (∃ t, exec (.sneReg x y) s = .next t ∧
      t.pc.toNat = (s.pc.toNat + if (s.reg x).toNat = (s.reg y).toNat then 2 else 4) % 65536 ∧ UnchangedBut [.pc] s t)

/-- R109 (that the base is all 12 bits of `nnn` in both modes is the spec's decision D28): the offset is V0 in legacy mode and
`V[x]` in modern mode. -/
def Obligations.JumpWithOffsetAddsTheQuirkRegister : Prop :=
  ∀ (x : Nibble) (nnn : Addr) (s : State), ∃ t, exec (.jpOff x nnn) s = .next t ∧ UnchangedBut [.pc] s t ∧
    (s.cfg.quirk = .legacy → t.pc.toNat = nnn.toNat + (s.reg 0).toNat) ∧
    (s.cfg.quirk = .modern → t.pc.toNat = nnn.toNat + (s.reg x).toNat)

/-- R101 (the spec's decision D5): SYS always raises `UnknownOpcode` with the full instruction word, whose high nibble is 0. -/
def Obligations.SysAlwaysRaisesUnknownOpcode : Prop :=
  ∀ (nnn : Addr) (s : State), ∃ w : Word, exec (.sys nnn) s = .fault (.unknownOpcode w) ∧ w.toNat = nnn.toNat

/-! ## Load, arithmetic, logic, shift, random -/

/-- R124, R125 (both G6): the immediate load and add, the sum modulo 256 with no flag. -/
def Obligations.ImmediateLoadAndAddWriteOneRegister : Prop :=
  ∀ (x : Nibble) (nn : Byte) (s : State),
    (∃ t, exec (.ldImm x nn) s = .next t ∧ (t.reg x).toNat = nn.toNat ∧ (∀ k, k ≠ x → t.reg k = s.reg k) ∧
      t.pc.toNat = (s.pc.toNat + 2) % 65536 ∧ UnchangedBut [.regs, .pc] s t) ∧
    (∃ t, exec (.addImm x nn) s = .next t ∧ (t.reg x).toNat = ((s.reg x).toNat + nn.toNat) % 256 ∧
      (∀ k, k ≠ x → t.reg k = s.reg k) ∧ t.pc.toNat = (s.pc.toNat + 2) % 65536 ∧ UnchangedBut [.regs, .pc] s t)

/-- R126 to R129 (all G7), bit by bit. That VF is not written unless it is the destination is R130, the spec's decision D7. -/
def Obligations.MoveAndLogicWriteOneRegister : Prop :=
  ∀ (x y : Nibble) (s : State),
    (∃ t, exec (.ldReg x y) s = .next t ∧ t.reg x = s.reg y ∧ (∀ k, k ≠ x → t.reg k = s.reg k) ∧
      t.pc.toNat = (s.pc.toNat + 2) % 65536 ∧ UnchangedBut [.regs, .pc] s t) ∧
    (∃ t, exec (.orReg x y) s = .next t ∧
      (∀ b, (t.reg x).getLsbD b = ((s.reg x).getLsbD b || (s.reg y).getLsbD b)) ∧ (∀ k, k ≠ x → t.reg k = s.reg k) ∧
      t.pc.toNat = (s.pc.toNat + 2) % 65536 ∧ UnchangedBut [.regs, .pc] s t) ∧
    (∃ t, exec (.andReg x y) s = .next t ∧
      (∀ b, (t.reg x).getLsbD b = ((s.reg x).getLsbD b && (s.reg y).getLsbD b)) ∧ (∀ k, k ≠ x → t.reg k = s.reg k) ∧
      t.pc.toNat = (s.pc.toNat + 2) % 65536 ∧ UnchangedBut [.regs, .pc] s t) ∧
    (∃ t, exec (.xorReg x y) s = .next t ∧
      (∀ b, (t.reg x).getLsbD b = ((s.reg x).getLsbD b ^^ (s.reg y).getLsbD b)) ∧ (∀ k, k ≠ x → t.reg k = s.reg k) ∧
      t.pc.toNat = (s.pc.toNat + 2) % 65536 ∧ UnchangedBut [.regs, .pc] s t)

/-- R131: the sum modulo 256, and VF = 1 exactly when the sum exceeds 255; at `x = 0xF` the flag is what stays. -/
def Obligations.AddSetsSumAndCarry : Prop :=
  ∀ (x y : Nibble) (s : State), ∃ t, exec (.addReg x y) s = .next t ∧
    (x ≠ regF → (t.reg x).toNat = ((s.reg x).toNat + (s.reg y).toNat) % 256) ∧
    (t.reg regF).toNat = (if (s.reg x).toNat + (s.reg y).toNat > 255 then 1 else 0) ∧
    (∀ k, k ≠ x → k ≠ regF → t.reg k = s.reg k) ∧
    t.pc.toNat = (s.pc.toNat + 2) % 65536 ∧ UnchangedBut [.regs, .pc] s t

/-- R132, R133 (the operand order is G8): `8XY5` computes `V[x] − V[y]` and `8XY7` computes `V[y] − V[x]`, modulo 256, both into
`V[x]`; VF = 1 exactly when no borrow occurs. -/
def Obligations.SubtractsSetDifferenceAndNoBorrow : Prop :=
  ∀ (x y : Nibble) (s : State),
    (∃ t, exec (.subReg x y) s = .next t ∧
      (x ≠ regF → (t.reg x).toNat = ((s.reg x).toNat + 256 - (s.reg y).toNat) % 256) ∧
      (t.reg regF).toNat = (if (s.reg x).toNat ≥ (s.reg y).toNat then 1 else 0) ∧
      (∀ k, k ≠ x → k ≠ regF → t.reg k = s.reg k) ∧
      t.pc.toNat = (s.pc.toNat + 2) % 65536 ∧ UnchangedBut [.regs, .pc] s t) ∧
    (∃ t, exec (.subnReg x y) s = .next t ∧
      (x ≠ regF → (t.reg x).toNat = ((s.reg y).toNat + 256 - (s.reg x).toNat) % 256) ∧
      (t.reg regF).toNat = (if (s.reg y).toNat ≥ (s.reg x).toNat then 1 else 0) ∧
      (∀ k, k ≠ x → k ≠ regF → t.reg k = s.reg k) ∧
      t.pc.toNat = (s.pc.toNat + 2) % 65536 ∧ UnchangedBut [.regs, .pc] s t)

/-- R134, R135: `8XY6` takes its source from `V[y]` in legacy mode and from `V[x]` in modern mode; half of it goes to `V[x]` and
bit 0 of it to VF, which is written last. -/
def Obligations.ShiftRightTakesTheQuirkSourceAndKeepsTheBitOut : Prop :=
  ∀ (x y : Nibble) (s : State) (src : Byte),
    (s.cfg.quirk = .legacy ∧ src = s.reg y) ∨ (s.cfg.quirk = .modern ∧ src = s.reg x) →
    ∃ t, exec (.shrReg x y) s = .next t ∧ (x ≠ regF → (t.reg x).toNat = src.toNat / 2) ∧
      (t.reg regF).toNat = src.toNat % 2 ∧ (∀ k, k ≠ x → k ≠ regF → t.reg k = s.reg k) ∧
      t.pc.toNat = (s.pc.toNat + 2) % 65536 ∧ UnchangedBut [.regs, .pc] s t

/-- R134, R137 (that `8XYE` shifts left is the spec's general knowledge G9): the same source; twice it, modulo 256, goes to `V[x]`
and bit 7 of it to VF, which is written last. -/
def Obligations.ShiftLeftTakesTheQuirkSourceAndKeepsTheBitOut : Prop :=
  ∀ (x y : Nibble) (s : State) (src : Byte),
    (s.cfg.quirk = .legacy ∧ src = s.reg y) ∨ (s.cfg.quirk = .modern ∧ src = s.reg x) →
    ∃ t, exec (.shlReg x y) s = .next t ∧ (x ≠ regF → (t.reg x).toNat = src.toNat * 2 % 256) ∧
      (t.reg regF).toNat = src.toNat / 128 ∧ (∀ k, k ≠ x → k ≠ regF → t.reg k = s.reg k) ∧
      t.pc.toNat = (s.pc.toNat + 2) % 65536 ∧ UnchangedBut [.regs, .pc] s t

/-- R138 (D23): the register receives the collaborator's byte under the mask, so no bit outside `nn` is set, whatever the byte is.
The byte is a free value; that it is the one numbered by the count of draws, and that the count goes up by one, is the model's
own form of it (log 3). -/
def Obligations.RandomByteIsMasked : Prop :=
  ∀ (x : Nibble) (nn : Byte) (s : State), ∃ t, exec (.rnd x nn) s = .next t ∧
    t.reg x = Config.randByte s.draws &&& nn ∧ t.reg x &&& ~~~nn = 0 ∧ t.draws = s.draws + 1 ∧
    (∀ k, k ≠ x → t.reg k = s.reg k) ∧ t.pc.toNat = (s.pc.toNat + 2) % 65536 ∧ UnchangedBut [.regs, .pc, .draws] s t

/-! ## Index register and memory -/

/-- R146, R147, R148 (G10, G13, G14): what goes to I. That `FX1E` leaves VF alone is D14; that `FX29` takes the low nibble is D11. -/
def Obligations.IndexInstructionsWriteIOnly : Prop :=
  ∀ (x : Nibble) (nnn : Addr) (s : State),
    (∃ t, exec (.ldI nnn) s = .next t ∧ t.i.toNat = nnn.toNat ∧ t.pc.toNat = (s.pc.toNat + 2) % 65536 ∧
      UnchangedBut [.index, .pc] s t) ∧
    (∃ t, exec (.addIVx x) s = .next t ∧ t.i.toNat = (s.i.toNat + (s.reg x).toNat) % 65536 ∧
      t.pc.toNat = (s.pc.toNat + 2) % 65536 ∧ UnchangedBut [.index, .pc] s t) ∧
    (∃ t, exec (.ldFVx x) s = .next t ∧ t.i.toNat = s.cfg.fontBase.val + 5 * ((s.reg x).toNat % 16) ∧
      t.pc.toNat = (s.pc.toNat + 2) % 65536 ∧ UnchangedBut [.index, .pc] s t)

/-- R149 (G15), R153: with its three addresses in range, `FX33` stores three digits 0 to 9 that make up `V[x]` at `EA(I)`, `EA(I +
1)`, `EA(I + 2)`, hundreds first, and no other byte changes. -/
def Obligations.DecimalDigitsAreStoredAtI : Prop :=
  ∀ (x : Nibble) (s : State), RunInRange s 3 →
    ∃ t d0 d1 d2, exec (.ldBVx x) s = .next t ∧ d0 ≤ 2 ∧ d1 ≤ 9 ∧ d2 ≤ 9 ∧
      (s.reg x).toNat = 100 * d0 + 10 * d1 + d2 ∧
      (∀ a, effAddr s.cfg s.i.toNat = .ok a → (t.byteAt a).toNat = d0) ∧
      (∀ a, effAddr s.cfg (s.i.toNat + 1) = .ok a → (t.byteAt a).toNat = d1) ∧
      (∀ a, effAddr s.cfg (s.i.toNat + 2) = .ok a → (t.byteAt a).toNat = d2) ∧
      (∀ b, (∀ k, k < 3 → effAddr s.cfg (s.i.toNat + k) ≠ .ok b) → t.byteAt b = s.byteAt b) ∧
      t.pc.toNat = (s.pc.toNat + 2) % 65536 ∧ UnchangedBut [.mem, .pc] s t

/-- R151, R150, R153: with its addresses in range, `FX55` stores `V[k]` at `EA(I + k)` for every `k` up to `x` and no other byte
changes; I grows by `x + 1` in legacy mode, modulo 65536 (D2), and stays in modern mode. -/
def Obligations.RegistersAreStoredFromI : Prop :=
  ∀ (x : Nibble) (s : State), RunInRange s (x.toNat + 1) →
    ∃ t, exec (.stRegs x) s = .next t ∧
      (∀ k a, k.toNat ≤ x.toNat → effAddr s.cfg (s.i.toNat + k.toNat) = .ok a → t.byteAt a = s.reg k) ∧
      (∀ b, (∀ k, k ≤ x.toNat → effAddr s.cfg (s.i.toNat + k) ≠ .ok b) → t.byteAt b = s.byteAt b) ∧
      (s.cfg.quirk = .legacy → t.i.toNat = (s.i.toNat + x.toNat + 1) % 65536) ∧
      (s.cfg.quirk = .modern → t.i = s.i) ∧
      t.pc.toNat = (s.pc.toNat + 2) % 65536 ∧ UnchangedBut [.mem, .index, .pc] s t

/-- R152, R150, R153: with its addresses in range, `FX65` loads `V[k]` from `EA(I + k)` for every `k` up to `x` and leaves the
other registers and all of memory alone; I as for `FX55`. -/
def Obligations.RegistersAreLoadedFromI : Prop :=
  ∀ (x : Nibble) (s : State), RunInRange s (x.toNat + 1) →
    ∃ t, exec (.ldRegs x) s = .next t ∧
      (∀ k a, k.toNat ≤ x.toNat → effAddr s.cfg (s.i.toNat + k.toNat) = .ok a → t.reg k = s.byteAt a) ∧
      (∀ k, x.toNat < k.toNat → t.reg k = s.reg k) ∧
      (s.cfg.quirk = .legacy → t.i.toNat = (s.i.toNat + x.toNat + 1) % 65536) ∧
      (s.cfg.quirk = .modern → t.i = s.i) ∧
      t.pc.toNat = (s.pc.toNat + 2) % 65536 ∧ UnchangedBut [.regs, .index, .pc] s t

/-- R151, R152: registers stored by `FX55` come back by `FX65` from the same I, whatever they held in between, as long as memory
is as the store left it. -/
def Obligations.StoredRegistersLoadBack : Prop :=
  ∀ (x : Nibble) (s t u : State), exec (.stRegs x) s = .next t → u.cfg = s.cfg → u.i = s.i →
    (∀ a, u.byteAt a = t.byteAt a) →
    ∃ v, exec (.ldRegs x) u = .next v ∧ ∀ k, k.toNat ≤ x.toNat → v.reg k = s.reg k

/-- R57, R153, R193 (the spec's decisions D3, D29): in `fault` mode each of the four instructions that access memory as data
raises `OutOfBoundsAccess` with the first address out of range. -/
def Obligations.FirstOutOfRangeAddressIsRaised : Prop :=
  ∀ (s : State) (k : Nat) (x y n : Nibble),
    (FirstOutOfRange s n.toNat k → exec (.drw x y n) s = .fault (.outOfBoundsAccess (s.i.toNat + k))) ∧
    (FirstOutOfRange s 3 k → exec (.ldBVx x) s = .fault (.outOfBoundsAccess (s.i.toNat + k))) ∧
    (FirstOutOfRange s (x.toNat + 1) k → exec (.stRegs x) s = .fault (.outOfBoundsAccess (s.i.toNat + k))) ∧
    (FirstOutOfRange s (x.toNat + 1) k → exec (.ldRegs x) s = .fault (.outOfBoundsAccess (s.i.toNat + k)))

/-- R65, R236: a byte stored by `FX55` (a register) or by `FX33` (a decimal digit, hundreds first) is what the very next fetch of its
address reads, as the high byte of the word or as the low byte, with no fence and no delay. What the two store is G16, G15. -/
def Obligations.StoredBytesAreFetchedAtOnce : Prop :=
  ∀ (x : Nibble) (s t : State) (a b : Nat), effAddr t.cfg t.pc.toNat = .ok a → effAddr t.cfg (t.pc.toNat + 1) = .ok b →
    (exec (.stRegs x) s = .next t → ∃ w, fetch t = .ok w ∧ ∀ k : Nibble, k.toNat ≤ x.toNat →
      (effAddr s.cfg (s.i.toNat + k.toNat) = .ok a → w.toNat / 256 = (s.reg k).toNat) ∧
      (effAddr s.cfg (s.i.toNat + k.toNat) = .ok b → w.toNat % 256 = (s.reg k).toNat)) ∧
    (exec (.ldBVx x) s = .next t → ∃ w, fetch t = .ok w ∧ ∀ k, k < 3 →
      (effAddr s.cfg (s.i.toNat + k) = .ok a → w.toNat / 256 = (s.reg x).toNat / 10 ^ (2 - k) % 10) ∧
      (effAddr s.cfg (s.i.toNat + k) = .ok b → w.toNat % 256 = (s.reg x).toNat / 10 ^ (2 - k) % 10))

/-! ## Display -/

/-- R161. -/
def Obligations.ClsDarkensEveryPixel : Prop :=
  ∀ s : State, ∃ t, exec .cls s = .next t ∧ AllDark t ∧ t.pc.toNat = (s.pc.toNat + 2) % 65536 ∧
    UnchangedBut [.display, .pc] s t

/-- R163, R164 (wraparound of every pixel is the spec's decision D9, the `n = 0` draw D27): with its rows in range, a draw inverts
exactly the pixels the sprite covers, and changes only VF and PC beside. -/
def Obligations.DrawInvertsTheCoveredPixels : Prop :=
  ∀ (x y n : Nibble) (s : State), RunInRange s n.toNat →
    ∃ t, exec (.drw x y n) s = .next t ∧
      (∀ px py, SpriteCovers s x y n px py → t.pixel px py = !s.pixel px py) ∧
      (∀ px py, ¬ SpriteCovers s x y n px py → t.pixel px py = s.pixel px py) ∧
      (∀ k, k ≠ regF → t.reg k = s.reg k) ∧
      t.pc.toNat = (s.pc.toNat + 2) % 65536 ∧ UnchangedBut [.display, .regs, .pc] s t

/-- R165 (where a bit lands is R162, R164: G17, D9): after a draw VF is 1 exactly when a 1 bit of the sprite landed on a pixel
that was lit before the instruction, and 0 else. -/
def Obligations.DrawCollisionIsALitPixelErased : Prop :=
  ∀ (x y n : Nibble) (s t : State), exec (.drw x y n) s = .next t →
    ((∃ px py, SpriteCovers s x y n px py ∧ s.pixel px py = true) → t.reg regF = 1) ∧
    ((¬ ∃ px py, SpriteCovers s x y n px py ∧ s.pixel px py = true) → t.reg regF = 0)

/-- R163's testable property: a second draw of the same sprite with the same register values restores every pixel; on a dark
display the first draw's VF is 0, and the second's is 1 exactly when the sprite has a 1 bit. -/
def Obligations.DrawingTwiceRestoresTheDisplay : Prop :=
  ∀ (x y n : Nibble) (s t u : State), exec (.drw x y n) s = .next t → u.cfg = t.cfg → u.i = t.i →
    (∀ k, u.reg k = s.reg k) → (∀ a, u.byteAt a = t.byteAt a) → (∀ px py, u.pixel px py = t.pixel px py) →
    ∃ v, exec (.drw x y n) u = .next v ∧ (∀ px py, v.pixel px py = s.pixel px py) ∧
      (AllDark s → t.reg regF = 0 ∧ ((∃ px py, SpriteCovers s x y n px py) ↔ v.reg regF = 1))

/-! ## Keypad and timers -/

/-- R171, R172 (G11; that the low nibble selects the key is the spec's decision D12). -/
def Obligations.KeySkipsTestTheKey : Prop :=
  ∀ (x k : Nibble) (s : State), k.toNat = (s.reg x).toNat % 16 →
    (∃ t, exec (.skp x) s = .next t ∧ t.pc.toNat = (s.pc.toNat + if s.key k = true then 4 else 2) % 65536 ∧
      UnchangedBut [.pc] s t) ∧
    (∃ t, exec (.sknp x) s = .next t ∧ t.pc.toNat = (s.pc.toNat + if s.key k = true then 2 else 4) % 65536 ∧
      UnchangedBut [.pc] s t)

/-- R173, R174: with no key pressed the key-wait changes nothing at all; else it stores the number of the least pressed key (that
it is the least is the spec's decision D13) and goes on. -/
def Obligations.KeyWaitWaitsOrStoresTheLeastKey : Prop :=
  ∀ (x : Nibble) (s : State),
    ((∀ k, s.key k = false) → exec (.ldVxK x) s = .next s) ∧
    (∀ k, s.key k = true → (∀ j, j.toNat < k.toNat → s.key j = false) →
      ∃ t, exec (.ldVxK x) s = .next t ∧ (t.reg x).toNat = k.toNat ∧ (∀ m, m ≠ x → t.reg m = s.reg m) ∧
        t.pc.toNat = (s.pc.toNat + 2) % 65536 ∧ UnchangedBut [.regs, .pc] s t)

/-- R175, R176, R177 (all G12). -/
def Obligations.TimerMovesCopyTheByte : Prop :=
  ∀ (x : Nibble) (s : State),
    (∃ t, exec (.ldVxDt x) s = .next t ∧ t.reg x = s.dt ∧ (∀ k, k ≠ x → t.reg k = s.reg k) ∧
      t.pc.toNat = (s.pc.toNat + 2) % 65536 ∧ UnchangedBut [.regs, .pc] s t) ∧
    (∃ t, exec (.ldDtVx x) s = .next t ∧ t.dt = s.reg x ∧ t.pc.toNat = (s.pc.toNat + 2) % 65536 ∧
      UnchangedBut [.delay, .pc] s t) ∧
    (∃ t, exec (.ldStVx x) s = .next t ∧ t.st = s.reg x ∧ (t.tone = true ↔ (s.reg x).toNat ≠ 0) ∧
      t.pc.toNat = (s.pc.toNat + 2) % 65536 ∧ UnchangedBut [.sound, .pc] s t)

/-! ## The host's calls -/

/-- R201: a tick takes 1 from each timer that is above 0, leaves one at 0, and changes nothing else. -/
def Obligations.TickDecrementsBothTimersAndClamps : Prop :=
  ∀ s : State,
    (s.dt.toNat > 0 → s.tick.dt.toNat = s.dt.toNat - 1) ∧ (s.dt.toNat = 0 → s.tick.dt.toNat = 0) ∧
    (s.st.toNat > 0 → s.tick.st.toNat = s.st.toNat - 1) ∧ (s.st.toNat = 0 → s.tick.st.toNat = 0) ∧
    UnchangedBut [.delay, .sound] s s.tick

/-- R208: `set_key` changes only its own flag. -/
def Obligations.SetKeyWritesOneFlag : Prop :=
  ∀ (k : Nibble) (p : Bool) (s : State), (s.setKey k p).key k = p ∧ (∀ j, j ≠ k → (s.setKey k p).key j = s.key j) ∧
    { s.setKey k p with keys := s.keys } = s

/-- R228 (that nothing else changes is the spec's decision D19): an image of at most 3584 bytes is copied in order to 0x200 and
up, and nothing else changes. -/
def Obligations.LoadProgramCopiesTheImage : Prop :=
  ∀ (bytes : List Byte) (s : State), bytes.length ≤ 3584 → ∃ t, loadProgram bytes s = .next t ∧
    (∀ j b, bytes[j]? = some b → t.byteAt (0x200 + j) = b) ∧
    (∀ a, a < 0x200 ∨ 0x200 + bytes.length ≤ a → t.byteAt a = s.byteAt a) ∧ UnchangedBut [.mem] s t

/-- R186: `LoadError` is raised by `load_program` exactly for more than 3584 bytes, and by no step. That it carries the length is
R185, R228, the spec's decision D4. That memory is as it was before the failed load is no clause: a fault carries no state (log 5). -/
def Obligations.LoadErrorIsRaisedExactlyForLongImages : Prop :=
  (∀ (bytes : List Byte) (s : State) (f : Fault), loadProgram bytes s = .fault f ↔
    bytes.length > 3584 ∧ f = .loadError bytes.length) ∧
  (∀ (s : State) (n : Nat), step s ≠ .fault (.loadError n))

/-- R202, R201: over any sequence of host calls in which no step runs `FX15` (`FX18`), the delay (sound) timer goes down by the
number of ticks, clamped at 0, whatever steps and key presses were interleaved. -/
def Obligations.TimersCountTicksWhateverStepsRun : Prop :=
  ∀ (s : State) (cs : List HostCall),
    (NeverRuns (fun i => ∃ x, i = .ldDtVx x) s cs → (s.after cs).dt.toNat = s.dt.toNat - tickCount cs) ∧
    (NeverRuns (fun i => ∃ x, i = .ldStVx x) s cs → (s.after cs).st.toNat = s.st.toNat - tickCount cs)

/-- R37: no instruction and no host call after construction changes the configuration. -/
def Obligations.ConfigurationNeverChanges : Prop :=
  ∀ (s : State) (cs : List HostCall), (s.after cs).cfg = s.cfg

/-- R195, R192: once a step has raised an error, every later step raises it again, whatever calls the host makes. -/
def Obligations.AnErrorRepeatsForEver : Prop :=
  ∀ (s : State) (f : Fault) (cs : List HostCall), step s = .fault f → step (s.after cs) = .fault f

/-- R232, R103: at a `1NNN` whose target is its own address the state is a fixed point of the step. -/
def Obligations.JumpToSelfIsAFixedPoint : Prop :=
  ∀ s : State, AtJumpToSelf s → step s = .next s

/-! ## Rules over all instructions -/

/-- R21, R23: no instruction changes a general register that is not its destination or, for the six flag writers, VF. -/
def Obligations.OnlyListedInstructionsWriteARegister : Prop :=
  ∀ (i : Instr) (s t : State) (k : Nibble), exec i s = .next t → ¬ MayWriteReg i k → t.reg k = s.reg k

/-- R24, R28, R29, R30, R31, R60, R34, R35: each other part of the state is changed by the listed instructions alone. -/
def Obligations.OnlyListedInstructionsChangeOtherState : Prop :=
  ∀ (i : Instr) (s t : State), exec i s = .next t →
    ((∀ a, i ≠ .ldI a) → (∀ x, i ≠ .addIVx x) → (∀ x, i ≠ .ldFVx x) → (∀ x, i ≠ .stRegs x) → (∀ x, i ≠ .ldRegs x) →
      t.i = s.i) ∧
    ((∀ a, i ≠ .call a) → i ≠ .ret → t.sp = s.sp) ∧
    ((∀ a, i ≠ .call a) → ∀ j, t.stackAt j = s.stackAt j) ∧
    ((∀ x, i ≠ .ldDtVx x) → t.dt = s.dt) ∧
    ((∀ x, i ≠ .ldStVx x) → t.st = s.st) ∧
    ((∀ x, i ≠ .ldBVx x) → (∀ x, i ≠ .stRegs x) → ∀ a, t.byteAt a = s.byteAt a) ∧
    (i ≠ .cls → (∀ x y n, i ≠ .drw x y n) → ∀ px py, t.pixel px py = s.pixel px py) ∧
    (∀ k, t.key k = s.key k)

/-- R26: every instruction that does not set PC itself goes on to `PC + 2`, modulo 65536 (D2). -/
def Obligations.OtherInstructionsAdvanceByTwo : Prop :=
  ∀ (i : Instr) (s t : State), exec i s = .next t → setsPcItself i = false →
    t.pc.toNat = (s.pc.toNat + 2) % 65536

/-- R191: which error each instruction can raise, with its information word; the other 28 raise none. -/
def Obligations.EachInstructionRaisesOnlyItsError : Prop :=
  ∀ (i : Instr) (s : State) (f : Fault), exec i s = .fault f →
    ((∃ nnn, i = .sys nnn) ∧ f = .unknownOpcode (encode i)) ∨
    ((∃ nnn, i = .call nnn) ∧ f = .stackOverflow s.pc) ∨
    (i = .ret ∧ f = .stackUnderflow s.pc) ∨
    (accessesMemory i = true ∧ s.cfg.oob = .fault ∧ ∃ a, 0xFFF < a ∧ f = .outOfBoundsAccess a)

/-- R190: a step raises `OutOfBoundsAccess(a)` only in `fault` mode and with `a` above 0xFFF; in `wrap` mode every address is
reduced modulo 4096 and the access proceeds. -/
def Obligations.OutOfBoundsOnlyInFaultMode : Prop :=
  (∀ (s : State) (a : Nat), step s = .fault (.outOfBoundsAccess a) → s.cfg.oob = .fault ∧ 0xFFF < a) ∧
  (∀ (cfg : Config) (a : Nat), cfg.oob = .wrap → effAddr cfg a = .ok (a % 4096)) ∧
  (∀ (cfg : Config) (a : Nat), cfg.oob = .fault → 0xFFF < a → effAddr cfg a = .error (.outOfBoundsAccess a))

/-- R5: `QUIRK` changes the shifts, `FX55`, `FX65` and `BNNN` alone: every other instruction does the same in both modes (`CXNN` when it
is answered with the same byte in both: log 3). -/
def Obligations.QuirkChangesOnlyTheListedInstructions : Prop :=
  ∀ (i : Instr) (q : Quirk) (s : State), readsQuirk i = false →
    (∀ t, exec i s = .next t → exec i (s.withQuirk q) = .next (t.withQuirk q)) ∧
    (∀ f, exec i s = .fault f → exec i (s.withQuirk q) = .fault f) ∧
    (∀ r, exec i s = .refused r → exec i (s.withQuirk q) = .refused r)
end

