-- ==== Sys2Proof/Laws/Memory.lean ====
section
/-! SUPPORT. The laws of memory: a read after a write, the canonical form is kept, and equal reads mean equal
memories. Every later claim about memory rests on these. -/

namespace Sys2Proof.Machine

namespace Memory

variable {cfg : Config}

/-- Nothing is found at an address below every listed one. -/
theorem find_eq_none_of_lt : ∀ {m : Memory} {a : Nat}, (∀ c ∈ m, a < c.1) → find m a = none
  | [], _, _ => rfl
  | (b, w) :: m, a, h => by
    have hb : a < b := h (b, w) (by simp)
    have hm : ∀ c ∈ m, a < c.1 := fun c hc => h c (by simp [hc])
    simp [find, Nat.ne_of_lt hb, find_eq_none_of_lt hm]

/-- What is found is listed. -/
theorem mem_of_find : ∀ {m : Memory} {a : Nat} {v : Byte}, find m a = some v → (a, v) ∈ m
  | [], _, _, h => by simp [find] at h
  | (b, w) :: m, a, v, h => by
    unfold find at h
    split at h
    · next hab => subst hab; simp at h; simp [h]
    · exact List.mem_cons_of_mem _ (mem_of_find h)

/-- `put` lists the byte at its address and leaves every other address as it was. -/
theorem find_put : ∀ (m : Memory) (a b : Nat) (v : Byte), find (put m a v) b = if b = a then some v else find m b
  | [], a, b, v => by simp [put, find]
  | (c, w) :: m, a, b, v => by
    unfold put
    split
    · simp [find]
    · split
      · next hac => subst hac; simp only [find]; split <;> simp_all
      · next hac =>
        simp only [find, find_put m a b v]
        by_cases hb : b = a
        · subst hb; simp [hac]
        · simp [hb]

/-- `unlist` removes the address's entry and no other. -/
theorem find_unlist : ∀ (m : Memory) (a b : Nat), find (unlist m a) b = if b = a then none else find m b
  | [], a, b => by simp [unlist, find]
  | (c, w) :: m, a, b => by
    have ih := find_unlist m a b
    unfold unlist at ih ⊢
    by_cases hc : c = a
    · subst hc
      simp only [List.filter_cons, bne_self_eq_false, Bool.false_eq_true, if_false, ih, find]
      split <;> simp_all
    · have : (c != a) = true := by simp [hc]
      simp only [List.filter_cons, this, if_true, find, ih]
      by_cases hb : b = c
      · subst hb; simp [hc]
      · simp [hb]

/-- A read after a write: the written byte at its address, the old byte everywhere else (R54, R62). -/
@[simp] theorem read_write (m : Memory) (a b : Nat) (v : Byte) :
    read cfg (write cfg m a v) b = if b = a then v else read cfg m b := by
  unfold write read
  split
  · next hv =>
    rw [find_unlist]
    by_cases hb : b = a
    · subst hb; simp [hv]
    · simp [hb]
  · rw [find_put]
    by_cases hb : b = a <;> simp [hb]

/-- Every entry after a `put` is the new one or an old one. -/
theorem mem_put : ∀ {m : Memory} {a : Nat} {v : Byte} {c : Host.Cell}, c ∈ put m a v → c = (a, v) ∨ c ∈ m
  | [], a, v, c, h => by simpa [put] using h
  | (b, w) :: m, a, v, c, h => by
    unfold put at h
    split at h
    · simpa using h
    · split at h
      · rcases List.mem_cons.1 h with h | h
        · exact .inl h
        · exact .inr (List.mem_cons_of_mem _ h)
      · rcases List.mem_cons.1 h with h | h
        · exact .inr (by simp [h])
        · rcases mem_put h with h | h
          · exact .inl h
          · exact .inr (List.mem_cons_of_mem _ h)

/-- `put` keeps the addresses strictly rising. -/
theorem pairwise_put : ∀ {m : Memory} (a : Nat) (v : Byte),
    m.Pairwise (fun c d => c.1 < d.1) → (put m a v).Pairwise (fun c d => c.1 < d.1)
  | [], a, v, _ => by simp [put]
  | (b, w) :: m, a, v, h => by
    rw [List.pairwise_cons] at h
    unfold put
    split
    · next hab =>
      refine List.pairwise_cons.2 ⟨fun c hc => ?_, List.pairwise_cons.2 h⟩
      rcases List.mem_cons.1 hc with hc | hc
      · subst hc; exact hab
      · exact Nat.lt_trans hab (h.1 c hc)
    · split
      · next hab => subst hab; exact List.pairwise_cons.2 h
      · next hlt hne =>
        refine List.pairwise_cons.2 ⟨fun c hc => ?_, pairwise_put a v h.2⟩
        rcases mem_put hc with hc | hc
        · subst hc; change b < a; omega
        · exact h.1 c hc

/-- A write inside memory keeps the canonical form. -/
theorem wf_write {m : Memory} {a : Nat} {v : Byte} (hm : wf cfg m) (ha : a < memSize) :
    wf cfg (write cfg m a v) := by
  unfold write
  split
  · exact ⟨hm.1.filter _, fun c hc => hm.2 c (List.mem_filter.1 hc).1⟩
  · next hv =>
    refine ⟨pairwise_put a v hm.1, fun c hc => ?_⟩
    rcases mem_put hc with hc | hc
    · subst hc; exact ⟨ha, hv⟩
    · exact hm.2 c hc

/-- Memory with nothing listed is in canonical form. -/
theorem wf_nil : wf cfg [] := ⟨List.Pairwise.nil, by simp⟩

/-- The first entry is what is found at its own address. -/
theorem find_head (a : Nat) (v : Byte) (m : Memory) : find ((a, v) :: m) a = some v := by simp [find]

/-- Two memories in canonical form that read alike at every address are the same list. -/
theorem eq_of_read_eq : ∀ {m n : Memory}, wf cfg m → wf cfg n → (∀ a, read cfg m a = read cfg n a) → m = n
  | [], [], _, _, _ => rfl
  | [], (a, v) :: n, _, hn, h => by
    have := h a
    simp only [read, find, Option.getD_none, if_true, Option.getD_some] at this
    exact absurd this.symm (hn.2 (a, v) (by simp)).2
  | (a, v) :: m, [], hm, _, h => by
    have := h a
    simp only [read, find, Option.getD_none, if_true, Option.getD_some] at this
    exact absurd this (hm.2 (a, v) (by simp)).2
  | (a, v) :: m, (b, w) :: n, hm, hn, h => by
    have pm := List.pairwise_cons.1 hm.1
    have pn := List.pairwise_cons.1 hn.1
    have hab : a = b := by
      rcases Nat.lt_trichotomy a b with hlt | heq | hgt
      · have hnone : find ((b, w) :: n) a = none := find_eq_none_of_lt fun c hc => by
          rcases List.mem_cons.1 hc with hc | hc
          · subst hc; exact hlt
          · exact Nat.lt_trans hlt (pn.1 c hc)
        have := h a
        simp only [read, find_head, hnone, Option.getD_none, Option.getD_some] at this
        exact absurd this (hm.2 (a, v) (by simp)).2
      · exact heq
      · have hnone : find ((a, v) :: m) b = none := find_eq_none_of_lt fun c hc => by
          rcases List.mem_cons.1 hc with hc | hc
          · subst hc; exact hgt
          · exact Nat.lt_trans hgt (pm.1 c hc)
        have := h b
        simp only [read, find_head, hnone, Option.getD_none, Option.getD_some] at this
        exact absurd this.symm (hn.2 (b, w) (by simp)).2
    subst hab
    have hvw : v = w := by
      have := h a
      simpa [read, find_head] using this
    subst hvw
    have htail : m = n := by
      refine eq_of_read_eq ⟨pm.2, fun c hc => hm.2 c (by simp [hc])⟩ ⟨pn.2, fun c hc => hn.2 c (by simp [hc])⟩ fun c => ?_
      by_cases hc : c = a
      · subst hc
        simp only [read, find_eq_none_of_lt pm.1, find_eq_none_of_lt pn.1]
      · have := h c
        simpa only [read, find, hc, if_false] using this
    rw [htail]

end Memory

end Sys2Proof.Machine
end

