-- ==== Sys2Proof/Laws/State.lean ====
section
/-! SUPPORT. What each named update of the state does to each field and each accessor: one lemma per field per update,
true by rfl, so that no later proof unfolds a record update. The register, memory and keypad read-backs that are not
rfl stand at the end. -/

namespace Sys2Proof.Machine

variable (s : State)

@[simp] theorem State.setReg_cfg (x : Nibble) (b : Byte) : (s.setReg x b).cfg = s.cfg := rfl
@[simp] theorem State.setReg_i (x : Nibble) (b : Byte) : (s.setReg x b).i = s.i := rfl
@[simp] theorem State.setReg_pc (x : Nibble) (b : Byte) : (s.setReg x b).pc = s.pc := rfl
@[simp] theorem State.setReg_sp (x : Nibble) (b : Byte) : (s.setReg x b).sp = s.sp := rfl
@[simp] theorem State.setReg_stack (x : Nibble) (b : Byte) : (s.setReg x b).stack = s.stack := rfl
@[simp] theorem State.setReg_dt (x : Nibble) (b : Byte) : (s.setReg x b).dt = s.dt := rfl
@[simp] theorem State.setReg_st (x : Nibble) (b : Byte) : (s.setReg x b).st = s.st := rfl
@[simp] theorem State.setReg_mem (x : Nibble) (b : Byte) : (s.setReg x b).mem = s.mem := rfl
@[simp] theorem State.setReg_fb (x : Nibble) (b : Byte) : (s.setReg x b).fb = s.fb := rfl
@[simp] theorem State.setReg_keys (x : Nibble) (b : Byte) : (s.setReg x b).keys = s.keys := rfl
@[simp] theorem State.setReg_draws (x : Nibble) (b : Byte) : (s.setReg x b).draws = s.draws := rfl
@[simp] theorem State.setReg_byteAt (x : Nibble) (b : Byte) (j : Nat) : (s.setReg x b).byteAt j = s.byteAt j := rfl
@[simp] theorem State.setReg_key (x : Nibble) (b : Byte) (j : Nibble) : (s.setReg x b).key j = s.key j := rfl
@[simp] theorem State.setReg_stackAt (x : Nibble) (b : Byte) (j : Nat) : (s.setReg x b).stackAt j = s.stackAt j := rfl

@[simp] theorem State.setFlag_cfg (c : Bool) : (s.setFlag c).cfg = s.cfg := rfl
@[simp] theorem State.setFlag_i (c : Bool) : (s.setFlag c).i = s.i := rfl
@[simp] theorem State.setFlag_pc (c : Bool) : (s.setFlag c).pc = s.pc := rfl
@[simp] theorem State.setFlag_sp (c : Bool) : (s.setFlag c).sp = s.sp := rfl
@[simp] theorem State.setFlag_stack (c : Bool) : (s.setFlag c).stack = s.stack := rfl
@[simp] theorem State.setFlag_dt (c : Bool) : (s.setFlag c).dt = s.dt := rfl
@[simp] theorem State.setFlag_st (c : Bool) : (s.setFlag c).st = s.st := rfl
@[simp] theorem State.setFlag_mem (c : Bool) : (s.setFlag c).mem = s.mem := rfl
@[simp] theorem State.setFlag_fb (c : Bool) : (s.setFlag c).fb = s.fb := rfl
@[simp] theorem State.setFlag_keys (c : Bool) : (s.setFlag c).keys = s.keys := rfl
@[simp] theorem State.setFlag_draws (c : Bool) : (s.setFlag c).draws = s.draws := rfl
@[simp] theorem State.setFlag_byteAt (c : Bool) (j : Nat) : (s.setFlag c).byteAt j = s.byteAt j := rfl
@[simp] theorem State.setFlag_key (c : Bool) (j : Nibble) : (s.setFlag c).key j = s.key j := rfl
@[simp] theorem State.setFlag_stackAt (c : Bool) (j : Nat) : (s.setFlag c).stackAt j = s.stackAt j := rfl

@[simp] theorem State.setRegFlag_cfg (x : Nibble) (p : Byte × Bool) : (s.setRegFlag x p).cfg = s.cfg := rfl
@[simp] theorem State.setRegFlag_i (x : Nibble) (p : Byte × Bool) : (s.setRegFlag x p).i = s.i := rfl
@[simp] theorem State.setRegFlag_pc (x : Nibble) (p : Byte × Bool) : (s.setRegFlag x p).pc = s.pc := rfl
@[simp] theorem State.setRegFlag_sp (x : Nibble) (p : Byte × Bool) : (s.setRegFlag x p).sp = s.sp := rfl
@[simp] theorem State.setRegFlag_stack (x : Nibble) (p : Byte × Bool) : (s.setRegFlag x p).stack = s.stack := rfl
@[simp] theorem State.setRegFlag_dt (x : Nibble) (p : Byte × Bool) : (s.setRegFlag x p).dt = s.dt := rfl
@[simp] theorem State.setRegFlag_st (x : Nibble) (p : Byte × Bool) : (s.setRegFlag x p).st = s.st := rfl
@[simp] theorem State.setRegFlag_mem (x : Nibble) (p : Byte × Bool) : (s.setRegFlag x p).mem = s.mem := rfl
@[simp] theorem State.setRegFlag_fb (x : Nibble) (p : Byte × Bool) : (s.setRegFlag x p).fb = s.fb := rfl
@[simp] theorem State.setRegFlag_keys (x : Nibble) (p : Byte × Bool) : (s.setRegFlag x p).keys = s.keys := rfl
@[simp] theorem State.setRegFlag_draws (x : Nibble) (p : Byte × Bool) : (s.setRegFlag x p).draws = s.draws := rfl
@[simp] theorem State.setRegFlag_byteAt (x : Nibble) (p : Byte × Bool) (j : Nat) : (s.setRegFlag x p).byteAt j = s.byteAt j := rfl
@[simp] theorem State.setRegFlag_key (x : Nibble) (p : Byte × Bool) (j : Nibble) : (s.setRegFlag x p).key j = s.key j := rfl
@[simp] theorem State.setRegFlag_stackAt (x : Nibble) (p : Byte × Bool) (j : Nat) : (s.setRegFlag x p).stackAt j = s.stackAt j := rfl

@[simp] theorem State.setRegsFrom0_cfg (bs : List Byte) : (s.setRegsFrom0 bs).cfg = s.cfg := rfl
@[simp] theorem State.setRegsFrom0_i (bs : List Byte) : (s.setRegsFrom0 bs).i = s.i := rfl
@[simp] theorem State.setRegsFrom0_pc (bs : List Byte) : (s.setRegsFrom0 bs).pc = s.pc := rfl
@[simp] theorem State.setRegsFrom0_sp (bs : List Byte) : (s.setRegsFrom0 bs).sp = s.sp := rfl
@[simp] theorem State.setRegsFrom0_stack (bs : List Byte) : (s.setRegsFrom0 bs).stack = s.stack := rfl
@[simp] theorem State.setRegsFrom0_dt (bs : List Byte) : (s.setRegsFrom0 bs).dt = s.dt := rfl
@[simp] theorem State.setRegsFrom0_st (bs : List Byte) : (s.setRegsFrom0 bs).st = s.st := rfl
@[simp] theorem State.setRegsFrom0_mem (bs : List Byte) : (s.setRegsFrom0 bs).mem = s.mem := rfl
@[simp] theorem State.setRegsFrom0_fb (bs : List Byte) : (s.setRegsFrom0 bs).fb = s.fb := rfl
@[simp] theorem State.setRegsFrom0_keys (bs : List Byte) : (s.setRegsFrom0 bs).keys = s.keys := rfl
@[simp] theorem State.setRegsFrom0_draws (bs : List Byte) : (s.setRegsFrom0 bs).draws = s.draws := rfl
@[simp] theorem State.setRegsFrom0_byteAt (bs : List Byte) (j : Nat) : (s.setRegsFrom0 bs).byteAt j = s.byteAt j := rfl
@[simp] theorem State.setRegsFrom0_key (bs : List Byte) (j : Nibble) : (s.setRegsFrom0 bs).key j = s.key j := rfl
@[simp] theorem State.setRegsFrom0_stackAt (bs : List Byte) (j : Nat) : (s.setRegsFrom0 bs).stackAt j = s.stackAt j := rfl

@[simp] theorem State.setI_cfg (a : Word) : (s.setI a).cfg = s.cfg := rfl
@[simp] theorem State.setI_v (a : Word) : (s.setI a).v = s.v := rfl
@[simp] theorem State.setI_i (a : Word) : (s.setI a).i = a := rfl
@[simp] theorem State.setI_pc (a : Word) : (s.setI a).pc = s.pc := rfl
@[simp] theorem State.setI_sp (a : Word) : (s.setI a).sp = s.sp := rfl
@[simp] theorem State.setI_stack (a : Word) : (s.setI a).stack = s.stack := rfl
@[simp] theorem State.setI_dt (a : Word) : (s.setI a).dt = s.dt := rfl
@[simp] theorem State.setI_st (a : Word) : (s.setI a).st = s.st := rfl
@[simp] theorem State.setI_mem (a : Word) : (s.setI a).mem = s.mem := rfl
@[simp] theorem State.setI_fb (a : Word) : (s.setI a).fb = s.fb := rfl
@[simp] theorem State.setI_keys (a : Word) : (s.setI a).keys = s.keys := rfl
@[simp] theorem State.setI_draws (a : Word) : (s.setI a).draws = s.draws := rfl
@[simp] theorem State.setI_reg (a : Word) (r : Nibble) : (s.setI a).reg r = s.reg r := rfl
@[simp] theorem State.setI_byteAt (a : Word) (j : Nat) : (s.setI a).byteAt j = s.byteAt j := rfl
@[simp] theorem State.setI_key (a : Word) (j : Nibble) : (s.setI a).key j = s.key j := rfl
@[simp] theorem State.setI_stackAt (a : Word) (j : Nat) : (s.setI a).stackAt j = s.stackAt j := rfl

@[simp] theorem State.setPc_cfg (a : Word) : (s.setPc a).cfg = s.cfg := rfl
@[simp] theorem State.setPc_v (a : Word) : (s.setPc a).v = s.v := rfl
@[simp] theorem State.setPc_i (a : Word) : (s.setPc a).i = s.i := rfl
@[simp] theorem State.setPc_pc (a : Word) : (s.setPc a).pc = a := rfl
@[simp] theorem State.setPc_sp (a : Word) : (s.setPc a).sp = s.sp := rfl
@[simp] theorem State.setPc_stack (a : Word) : (s.setPc a).stack = s.stack := rfl
@[simp] theorem State.setPc_dt (a : Word) : (s.setPc a).dt = s.dt := rfl
@[simp] theorem State.setPc_st (a : Word) : (s.setPc a).st = s.st := rfl
@[simp] theorem State.setPc_mem (a : Word) : (s.setPc a).mem = s.mem := rfl
@[simp] theorem State.setPc_fb (a : Word) : (s.setPc a).fb = s.fb := rfl
@[simp] theorem State.setPc_keys (a : Word) : (s.setPc a).keys = s.keys := rfl
@[simp] theorem State.setPc_draws (a : Word) : (s.setPc a).draws = s.draws := rfl
@[simp] theorem State.setPc_reg (a : Word) (r : Nibble) : (s.setPc a).reg r = s.reg r := rfl
@[simp] theorem State.setPc_byteAt (a : Word) (j : Nat) : (s.setPc a).byteAt j = s.byteAt j := rfl
@[simp] theorem State.setPc_key (a : Word) (j : Nibble) : (s.setPc a).key j = s.key j := rfl
@[simp] theorem State.setPc_stackAt (a : Word) (j : Nat) : (s.setPc a).stackAt j = s.stackAt j := rfl

@[simp] theorem State.setDt_cfg (b : Byte) : (s.setDt b).cfg = s.cfg := rfl
@[simp] theorem State.setDt_v (b : Byte) : (s.setDt b).v = s.v := rfl
@[simp] theorem State.setDt_i (b : Byte) : (s.setDt b).i = s.i := rfl
@[simp] theorem State.setDt_pc (b : Byte) : (s.setDt b).pc = s.pc := rfl
@[simp] theorem State.setDt_sp (b : Byte) : (s.setDt b).sp = s.sp := rfl
@[simp] theorem State.setDt_stack (b : Byte) : (s.setDt b).stack = s.stack := rfl
@[simp] theorem State.setDt_dt (b : Byte) : (s.setDt b).dt = b := rfl
@[simp] theorem State.setDt_st (b : Byte) : (s.setDt b).st = s.st := rfl
@[simp] theorem State.setDt_mem (b : Byte) : (s.setDt b).mem = s.mem := rfl
@[simp] theorem State.setDt_fb (b : Byte) : (s.setDt b).fb = s.fb := rfl
@[simp] theorem State.setDt_keys (b : Byte) : (s.setDt b).keys = s.keys := rfl
@[simp] theorem State.setDt_draws (b : Byte) : (s.setDt b).draws = s.draws := rfl
@[simp] theorem State.setDt_reg (b : Byte) (r : Nibble) : (s.setDt b).reg r = s.reg r := rfl
@[simp] theorem State.setDt_byteAt (b : Byte) (j : Nat) : (s.setDt b).byteAt j = s.byteAt j := rfl
@[simp] theorem State.setDt_key (b : Byte) (j : Nibble) : (s.setDt b).key j = s.key j := rfl
@[simp] theorem State.setDt_stackAt (b : Byte) (j : Nat) : (s.setDt b).stackAt j = s.stackAt j := rfl

@[simp] theorem State.setSt_cfg (b : Byte) : (s.setSt b).cfg = s.cfg := rfl
@[simp] theorem State.setSt_v (b : Byte) : (s.setSt b).v = s.v := rfl
@[simp] theorem State.setSt_i (b : Byte) : (s.setSt b).i = s.i := rfl
@[simp] theorem State.setSt_pc (b : Byte) : (s.setSt b).pc = s.pc := rfl
@[simp] theorem State.setSt_sp (b : Byte) : (s.setSt b).sp = s.sp := rfl
@[simp] theorem State.setSt_stack (b : Byte) : (s.setSt b).stack = s.stack := rfl
@[simp] theorem State.setSt_dt (b : Byte) : (s.setSt b).dt = s.dt := rfl
@[simp] theorem State.setSt_st (b : Byte) : (s.setSt b).st = b := rfl
@[simp] theorem State.setSt_mem (b : Byte) : (s.setSt b).mem = s.mem := rfl
@[simp] theorem State.setSt_fb (b : Byte) : (s.setSt b).fb = s.fb := rfl
@[simp] theorem State.setSt_keys (b : Byte) : (s.setSt b).keys = s.keys := rfl
@[simp] theorem State.setSt_draws (b : Byte) : (s.setSt b).draws = s.draws := rfl
@[simp] theorem State.setSt_reg (b : Byte) (r : Nibble) : (s.setSt b).reg r = s.reg r := rfl
@[simp] theorem State.setSt_byteAt (b : Byte) (j : Nat) : (s.setSt b).byteAt j = s.byteAt j := rfl
@[simp] theorem State.setSt_key (b : Byte) (j : Nibble) : (s.setSt b).key j = s.key j := rfl
@[simp] theorem State.setSt_stackAt (b : Byte) (j : Nat) : (s.setSt b).stackAt j = s.stackAt j := rfl

@[simp] theorem State.advance_cfg : (s.advance).cfg = s.cfg := rfl
@[simp] theorem State.advance_v : (s.advance).v = s.v := rfl
@[simp] theorem State.advance_i : (s.advance).i = s.i := rfl
@[simp] theorem State.advance_pc : (s.advance).pc = s.pc + 2 := rfl
@[simp] theorem State.advance_sp : (s.advance).sp = s.sp := rfl
@[simp] theorem State.advance_stack : (s.advance).stack = s.stack := rfl
@[simp] theorem State.advance_dt : (s.advance).dt = s.dt := rfl
@[simp] theorem State.advance_st : (s.advance).st = s.st := rfl
@[simp] theorem State.advance_mem : (s.advance).mem = s.mem := rfl
@[simp] theorem State.advance_fb : (s.advance).fb = s.fb := rfl
@[simp] theorem State.advance_keys : (s.advance).keys = s.keys := rfl
@[simp] theorem State.advance_draws : (s.advance).draws = s.draws := rfl
@[simp] theorem State.advance_reg (r : Nibble) : (s.advance).reg r = s.reg r := rfl
@[simp] theorem State.advance_byteAt (j : Nat) : (s.advance).byteAt j = s.byteAt j := rfl
@[simp] theorem State.advance_key (j : Nibble) : (s.advance).key j = s.key j := rfl
@[simp] theorem State.advance_stackAt (j : Nat) : (s.advance).stackAt j = s.stackAt j := rfl

@[simp] theorem State.skipIf_cfg (c : Bool) : (s.skipIf c).cfg = s.cfg := rfl
@[simp] theorem State.skipIf_v (c : Bool) : (s.skipIf c).v = s.v := rfl
@[simp] theorem State.skipIf_i (c : Bool) : (s.skipIf c).i = s.i := rfl
@[simp] theorem State.skipIf_pc (c : Bool) : (s.skipIf c).pc = s.pc + (if c then 4 else 2) := rfl
@[simp] theorem State.skipIf_sp (c : Bool) : (s.skipIf c).sp = s.sp := rfl
@[simp] theorem State.skipIf_stack (c : Bool) : (s.skipIf c).stack = s.stack := rfl
@[simp] theorem State.skipIf_dt (c : Bool) : (s.skipIf c).dt = s.dt := rfl
@[simp] theorem State.skipIf_st (c : Bool) : (s.skipIf c).st = s.st := rfl
@[simp] theorem State.skipIf_mem (c : Bool) : (s.skipIf c).mem = s.mem := rfl
@[simp] theorem State.skipIf_fb (c : Bool) : (s.skipIf c).fb = s.fb := rfl
@[simp] theorem State.skipIf_keys (c : Bool) : (s.skipIf c).keys = s.keys := rfl
@[simp] theorem State.skipIf_draws (c : Bool) : (s.skipIf c).draws = s.draws := rfl
@[simp] theorem State.skipIf_reg (c : Bool) (r : Nibble) : (s.skipIf c).reg r = s.reg r := rfl
@[simp] theorem State.skipIf_byteAt (c : Bool) (j : Nat) : (s.skipIf c).byteAt j = s.byteAt j := rfl
@[simp] theorem State.skipIf_key (c : Bool) (j : Nibble) : (s.skipIf c).key j = s.key j := rfl
@[simp] theorem State.skipIf_stackAt (c : Bool) (j : Nat) : (s.skipIf c).stackAt j = s.stackAt j := rfl

@[simp] theorem State.setByte_cfg (a : Nat) (b : Byte) : (s.setByte a b).cfg = s.cfg := rfl
@[simp] theorem State.setByte_v (a : Nat) (b : Byte) : (s.setByte a b).v = s.v := rfl
@[simp] theorem State.setByte_i (a : Nat) (b : Byte) : (s.setByte a b).i = s.i := rfl
@[simp] theorem State.setByte_pc (a : Nat) (b : Byte) : (s.setByte a b).pc = s.pc := rfl
@[simp] theorem State.setByte_sp (a : Nat) (b : Byte) : (s.setByte a b).sp = s.sp := rfl
@[simp] theorem State.setByte_stack (a : Nat) (b : Byte) : (s.setByte a b).stack = s.stack := rfl
@[simp] theorem State.setByte_dt (a : Nat) (b : Byte) : (s.setByte a b).dt = s.dt := rfl
@[simp] theorem State.setByte_st (a : Nat) (b : Byte) : (s.setByte a b).st = s.st := rfl
@[simp] theorem State.setByte_mem (a : Nat) (b : Byte) : (s.setByte a b).mem = Memory.write s.cfg s.mem a b := rfl
@[simp] theorem State.setByte_fb (a : Nat) (b : Byte) : (s.setByte a b).fb = s.fb := rfl
@[simp] theorem State.setByte_keys (a : Nat) (b : Byte) : (s.setByte a b).keys = s.keys := rfl
@[simp] theorem State.setByte_draws (a : Nat) (b : Byte) : (s.setByte a b).draws = s.draws := rfl
@[simp] theorem State.setByte_reg (a : Nat) (b : Byte) (r : Nibble) : (s.setByte a b).reg r = s.reg r := rfl
@[simp] theorem State.setByte_key (a : Nat) (b : Byte) (j : Nibble) : (s.setByte a b).key j = s.key j := rfl
@[simp] theorem State.setByte_stackAt (a : Nat) (b : Byte) (j : Nat) : (s.setByte a b).stackAt j = s.stackAt j := rfl

@[simp] theorem State.setSp_cfg (b : Byte) : (s.setSp b).cfg = s.cfg := rfl
@[simp] theorem State.setSp_v (b : Byte) : (s.setSp b).v = s.v := rfl
@[simp] theorem State.setSp_i (b : Byte) : (s.setSp b).i = s.i := rfl
@[simp] theorem State.setSp_pc (b : Byte) : (s.setSp b).pc = s.pc := rfl
@[simp] theorem State.setSp_sp (b : Byte) : (s.setSp b).sp = b := rfl
@[simp] theorem State.setSp_stack (b : Byte) : (s.setSp b).stack = s.stack := rfl
@[simp] theorem State.setSp_dt (b : Byte) : (s.setSp b).dt = s.dt := rfl
@[simp] theorem State.setSp_st (b : Byte) : (s.setSp b).st = s.st := rfl
@[simp] theorem State.setSp_mem (b : Byte) : (s.setSp b).mem = s.mem := rfl
@[simp] theorem State.setSp_fb (b : Byte) : (s.setSp b).fb = s.fb := rfl
@[simp] theorem State.setSp_keys (b : Byte) : (s.setSp b).keys = s.keys := rfl
@[simp] theorem State.setSp_draws (b : Byte) : (s.setSp b).draws = s.draws := rfl
@[simp] theorem State.setSp_reg (b : Byte) (r : Nibble) : (s.setSp b).reg r = s.reg r := rfl
@[simp] theorem State.setSp_byteAt (b : Byte) (j : Nat) : (s.setSp b).byteAt j = s.byteAt j := rfl
@[simp] theorem State.setSp_key (b : Byte) (j : Nibble) : (s.setSp b).key j = s.key j := rfl
@[simp] theorem State.setSp_stackAt (b : Byte) (j : Nat) : (s.setSp b).stackAt j = s.stackAt j := rfl

@[simp] theorem State.push_cfg (a : Word) : (s.push a).cfg = s.cfg := rfl
@[simp] theorem State.push_v (a : Word) : (s.push a).v = s.v := rfl
@[simp] theorem State.push_i (a : Word) : (s.push a).i = s.i := rfl
@[simp] theorem State.push_pc (a : Word) : (s.push a).pc = s.pc := rfl
@[simp] theorem State.push_sp (a : Word) : (s.push a).sp = s.sp + 1 := rfl
@[simp] theorem State.push_stack (a : Word) : (s.push a).stack = s.stack.setIfInBounds s.sp.toNat a := rfl
@[simp] theorem State.push_dt (a : Word) : (s.push a).dt = s.dt := rfl
@[simp] theorem State.push_st (a : Word) : (s.push a).st = s.st := rfl
@[simp] theorem State.push_mem (a : Word) : (s.push a).mem = s.mem := rfl
@[simp] theorem State.push_fb (a : Word) : (s.push a).fb = s.fb := rfl
@[simp] theorem State.push_keys (a : Word) : (s.push a).keys = s.keys := rfl
@[simp] theorem State.push_draws (a : Word) : (s.push a).draws = s.draws := rfl
@[simp] theorem State.push_reg (a : Word) (r : Nibble) : (s.push a).reg r = s.reg r := rfl
@[simp] theorem State.push_byteAt (a : Word) (j : Nat) : (s.push a).byteAt j = s.byteAt j := rfl
@[simp] theorem State.push_key (a : Word) (j : Nibble) : (s.push a).key j = s.key j := rfl

@[simp] theorem State.setDisplay_cfg (d : Display) : (s.setDisplay d).cfg = s.cfg := rfl
@[simp] theorem State.setDisplay_v (d : Display) : (s.setDisplay d).v = s.v := rfl
@[simp] theorem State.setDisplay_i (d : Display) : (s.setDisplay d).i = s.i := rfl
@[simp] theorem State.setDisplay_pc (d : Display) : (s.setDisplay d).pc = s.pc := rfl
@[simp] theorem State.setDisplay_sp (d : Display) : (s.setDisplay d).sp = s.sp := rfl
@[simp] theorem State.setDisplay_stack (d : Display) : (s.setDisplay d).stack = s.stack := rfl
@[simp] theorem State.setDisplay_dt (d : Display) : (s.setDisplay d).dt = s.dt := rfl
@[simp] theorem State.setDisplay_st (d : Display) : (s.setDisplay d).st = s.st := rfl
@[simp] theorem State.setDisplay_mem (d : Display) : (s.setDisplay d).mem = s.mem := rfl
@[simp] theorem State.setDisplay_fb (d : Display) : (s.setDisplay d).fb = d := rfl
@[simp] theorem State.setDisplay_keys (d : Display) : (s.setDisplay d).keys = s.keys := rfl
@[simp] theorem State.setDisplay_draws (d : Display) : (s.setDisplay d).draws = s.draws := rfl
@[simp] theorem State.setDisplay_reg (d : Display) (r : Nibble) : (s.setDisplay d).reg r = s.reg r := rfl
@[simp] theorem State.setDisplay_byteAt (d : Display) (j : Nat) : (s.setDisplay d).byteAt j = s.byteAt j := rfl
@[simp] theorem State.setDisplay_key (d : Display) (j : Nibble) : (s.setDisplay d).key j = s.key j := rfl
@[simp] theorem State.setDisplay_stackAt (d : Display) (j : Nat) : (s.setDisplay d).stackAt j = s.stackAt j := rfl

@[simp] theorem State.countDraw_cfg : (s.countDraw).cfg = s.cfg := rfl
@[simp] theorem State.countDraw_v : (s.countDraw).v = s.v := rfl
@[simp] theorem State.countDraw_i : (s.countDraw).i = s.i := rfl
@[simp] theorem State.countDraw_pc : (s.countDraw).pc = s.pc := rfl
@[simp] theorem State.countDraw_sp : (s.countDraw).sp = s.sp := rfl
@[simp] theorem State.countDraw_stack : (s.countDraw).stack = s.stack := rfl
@[simp] theorem State.countDraw_dt : (s.countDraw).dt = s.dt := rfl
@[simp] theorem State.countDraw_st : (s.countDraw).st = s.st := rfl
@[simp] theorem State.countDraw_mem : (s.countDraw).mem = s.mem := rfl
@[simp] theorem State.countDraw_fb : (s.countDraw).fb = s.fb := rfl
@[simp] theorem State.countDraw_keys : (s.countDraw).keys = s.keys := rfl
@[simp] theorem State.countDraw_draws : (s.countDraw).draws = s.draws + 1 := rfl
@[simp] theorem State.countDraw_reg (r : Nibble) : (s.countDraw).reg r = s.reg r := rfl
@[simp] theorem State.countDraw_byteAt (j : Nat) : (s.countDraw).byteAt j = s.byteAt j := rfl
@[simp] theorem State.countDraw_key (j : Nibble) : (s.countDraw).key j = s.key j := rfl
@[simp] theorem State.countDraw_stackAt (j : Nat) : (s.countDraw).stackAt j = s.stackAt j := rfl

@[simp] theorem State.setKey_cfg (k : Nibble) (b : Bool) : (s.setKey k b).cfg = s.cfg := rfl
@[simp] theorem State.setKey_v (k : Nibble) (b : Bool) : (s.setKey k b).v = s.v := rfl
@[simp] theorem State.setKey_i (k : Nibble) (b : Bool) : (s.setKey k b).i = s.i := rfl
@[simp] theorem State.setKey_pc (k : Nibble) (b : Bool) : (s.setKey k b).pc = s.pc := rfl
@[simp] theorem State.setKey_sp (k : Nibble) (b : Bool) : (s.setKey k b).sp = s.sp := rfl
@[simp] theorem State.setKey_stack (k : Nibble) (b : Bool) : (s.setKey k b).stack = s.stack := rfl
@[simp] theorem State.setKey_dt (k : Nibble) (b : Bool) : (s.setKey k b).dt = s.dt := rfl
@[simp] theorem State.setKey_st (k : Nibble) (b : Bool) : (s.setKey k b).st = s.st := rfl
@[simp] theorem State.setKey_mem (k : Nibble) (b : Bool) : (s.setKey k b).mem = s.mem := rfl
@[simp] theorem State.setKey_fb (k : Nibble) (b : Bool) : (s.setKey k b).fb = s.fb := rfl
@[simp] theorem State.setKey_draws (k : Nibble) (b : Bool) : (s.setKey k b).draws = s.draws := rfl
@[simp] theorem State.setKey_reg (k : Nibble) (b : Bool) (r : Nibble) : (s.setKey k b).reg r = s.reg r := rfl
@[simp] theorem State.setKey_byteAt (k : Nibble) (b : Bool) (j : Nat) : (s.setKey k b).byteAt j = s.byteAt j := rfl
@[simp] theorem State.setKey_stackAt (k : Nibble) (b : Bool) (j : Nat) : (s.setKey k b).stackAt j = s.stackAt j := rfl

@[simp] theorem State.tick_cfg : (s.tick).cfg = s.cfg := rfl
@[simp] theorem State.tick_v : (s.tick).v = s.v := rfl
@[simp] theorem State.tick_i : (s.tick).i = s.i := rfl
@[simp] theorem State.tick_pc : (s.tick).pc = s.pc := rfl
@[simp] theorem State.tick_sp : (s.tick).sp = s.sp := rfl
@[simp] theorem State.tick_stack : (s.tick).stack = s.stack := rfl
@[simp] theorem State.tick_dt : (s.tick).dt = countDown s.dt := rfl
@[simp] theorem State.tick_st : (s.tick).st = countDown s.st := rfl
@[simp] theorem State.tick_mem : (s.tick).mem = s.mem := rfl
@[simp] theorem State.tick_fb : (s.tick).fb = s.fb := rfl
@[simp] theorem State.tick_keys : (s.tick).keys = s.keys := rfl
@[simp] theorem State.tick_draws : (s.tick).draws = s.draws := rfl
@[simp] theorem State.tick_reg (r : Nibble) : (s.tick).reg r = s.reg r := rfl
@[simp] theorem State.tick_byteAt (j : Nat) : (s.tick).byteAt j = s.byteAt j := rfl
@[simp] theorem State.tick_key (j : Nibble) : (s.tick).key j = s.key j := rfl
@[simp] theorem State.tick_stackAt (j : Nat) : (s.tick).stackAt j = s.stackAt j := rfl

/-! ## Read-backs -/

/-- A register write is read back at its own register and nowhere else (R20: no alias between registers). -/
@[simp] theorem State.reg_setReg (x k : Nibble) (b : Byte) :
    (s.setReg x b).reg k = if k = x then b else s.reg k := by
  by_cases h : k = x
  · subst h; simp [State.reg, State.setReg]
  · have hne : x.toNat ≠ k.toNat := fun e => h (BitVec.eq_of_toNat_eq e.symm)
    simp [State.reg, State.setReg, h, Vector.getElem_set_ne, hne]

/-- A flag write is a write of VF. -/
@[simp] theorem State.reg_setFlag (k : Nibble) (c : Bool) :
    (s.setFlag c).reg k = if k = regF then flagByte c else s.reg k := s.reg_setReg regF k (flagByte c)

/-- R122: the flag is written last, so at VF it is the flag that stays. -/
@[simp] theorem State.reg_setRegFlag (x k : Nibble) (p : Byte × Bool) :
    (s.setRegFlag x p).reg k = if k = regF then flagByte p.2 else if k = x then p.1 else s.reg k := by
  simp [State.setRegFlag]

/-- Loading registers from `V[0]` up reads back the bytes where there is one, the old values elsewhere. -/
@[simp] theorem State.reg_setRegsFrom0 (bs : List Byte) (k : Nibble) :
    (s.setRegsFrom0 bs).reg k = (bs[k.toNat]?).getD (s.reg k) := by
  simp [State.reg, State.setRegsFrom0]

/-- A keypad write is read back at its own key and nowhere else (R208). -/
@[simp] theorem State.key_setKey (k j : Nibble) (b : Bool) :
    (s.setKey k b).key j = if j = k then b else s.key j := by
  by_cases h : j = k
  · subst h; simp [State.key, State.setKey]
  · have hne : k.toNat ≠ j.toNat := fun e => h (BitVec.eq_of_toNat_eq e.symm)
    simp [State.key, State.setKey, h, Vector.getElem_set_ne, hne]

/-- A push writes `STACK[SP]` and no other entry (R104). -/
theorem State.stackAt_push (a : Word) (h : s.sp.toNat < 16) (j : Nat) :
    (s.push a).stackAt j = if j = s.sp.toNat then some a else s.stackAt j := by
  by_cases hj : j = s.sp.toNat
  · subst hj; simp [State.stackAt, State.push, h]
  · have hj' : s.sp.toNat ≠ j := fun e => hj e.symm
    simp [State.stackAt, State.push, hj, hj']

/-- VF is register 15. -/
theorem regF_toNat : regF.toNat = 15 := rfl

/-- Every flag byte is 0 or 1 (R22). -/
theorem flagByte_toNat (b : Bool) : (flagByte b).toNat = if b then 1 else 0 := by cases b <;> rfl

/-- One tick takes 1 from a timer and clamps at 0 (R201). -/
theorem countDown_toNat (b : Byte) : (countDown b).toNat = b.toNat - 1 := by
  unfold countDown
  split
  · rw [BitVec.toNat_sub]; simp; omega
  · omega

end Sys2Proof.Machine
end

