-- ==== Sys2Proof/Laws/Access.lean ====
section
/-! SUPPORT. What the memory accesses of a step can do: effective addresses, runs of bytes, fetch, the loading of an image.
One lemma per operation says when it succeeds and with what, and what it raises else. -/

namespace Sys2Proof.Machine

variable {cfg : Config}

/-! ## Effective addresses (R56) -/

theorem effAddr_of_le {a : Nat} (h : a ≤ 0xFFF) : effAddr cfg a = .ok a := by simp [effAddr, h]

theorem effAddr_wrap (h : cfg.oob = .wrap) (a : Nat) : effAddr cfg a = .ok (a % memSize) := by
  unfold effAddr
  split
  · next ha => rw [Nat.mod_eq_of_lt (show a < memSize by unfold memSize; omega)]
  · rw [h]

theorem effAddr_fault (h : cfg.oob = .fault) {a : Nat} (ha : 0xFFF < a) :
    effAddr cfg a = .error (.outOfBoundsAccess a) := by
  unfold effAddr
  rw [if_neg (by omega), h]

/-- An effective address is inside memory and is the address modulo the memory size. -/
theorem effAddr_ok {a b : Nat} (h : effAddr cfg a = .ok b) : b = a % memSize ∧ (cfg.oob = .wrap ∨ a ≤ 0xFFF) := by
  cases hm : cfg.oob with
  | wrap => rw [effAddr_wrap hm] at h; exact ⟨(Except.ok.inj h).symm, .inl rfl⟩
  | fault =>
    by_cases ha : a ≤ 0xFFF
    · rw [effAddr_of_le ha] at h
      refine ⟨?_, .inr ha⟩
      rw [← Except.ok.inj h, Nat.mod_eq_of_lt (show a < memSize by unfold memSize; omega)]
    · rw [effAddr_fault hm (by omega)] at h; cases h

theorem effAddr_lt {a b : Nat} (h : effAddr cfg a = .ok b) : b < memSize := by
  rw [(effAddr_ok h).1]; exact Nat.mod_lt _ (by simp)

/-- The one error of an address, and when (R56, R190). -/
theorem effAddr_error {a : Nat} {f : Fault} (h : effAddr cfg a = .error f) :
    cfg.oob = .fault ∧ 0xFFF < a ∧ f = .outOfBoundsAccess a := by
  unfold effAddr at h
  split at h
  · cases h
  · next ha =>
    cases hm : cfg.oob with
    | wrap => rw [hm] at h; cases h
    | fault => rw [hm] at h; exact ⟨rfl, by omega, (Except.error.inj h).symm⟩

/-- The addresses of a run of at most 4096 bytes are all different. -/
theorem effAddr_inj {base j k a : Nat} (hj : j < 4096) (hk : k < 4096)
    (h1 : effAddr cfg (base + j) = .ok a) (h2 : effAddr cfg (base + k) = .ok a) : j = k := by
  have e1 := (effAddr_ok h1).1
  have e2 := (effAddr_ok h2).1
  simp only [memSize] at *
  omega

/-! ## Runs of addresses (R53, R57) -/

/-- A run succeeds exactly when every one of its addresses does, and lists them in order. -/
theorem effAddrs_ok_iff : ∀ (n base : Nat) (as : List Nat),
    effAddrs cfg base n = .ok as ↔ as.length = n ∧ ∀ k, k < n → effAddr cfg (base + k) = .ok (as[k]?.getD 0)
  | 0, base, as => by
    constructor
    · intro h; cases h; exact ⟨rfl, fun k hk => absurd hk (by omega)⟩
    · rintro ⟨h, -⟩; rw [List.length_eq_zero_iff.1 h]; rfl
  | n + 1, base, as => by
    constructor
    · intro h
      unfold effAddrs at h
      split at h
      · cases h
      · next a ha =>
        split at h
        · cases h
        · next bs hbs =>
          cases h
          obtain ⟨hl, hk⟩ := (effAddrs_ok_iff n (base + 1) bs).1 hbs
          refine ⟨by simp [hl], fun k hkn => ?_⟩
          cases k with
          | zero => simpa using ha
          | succ k =>
            have := hk k (by omega)
            rw [show base + (k + 1) = base + 1 + k by omega]
            simpa using this
    · rintro ⟨hl, hk⟩
      cases as with
      | nil => simp at hl
      | cons a as =>
        have h0 := hk 0 (by omega)
        have ht : effAddrs cfg (base + 1) n = .ok as := by
          refine (effAddrs_ok_iff n (base + 1) as).2 ⟨by simpa using hl, fun k hkn => ?_⟩
          have := hk (k + 1) (by omega)
          rw [show base + (k + 1) = base + 1 + k by omega] at this
          simpa using this
        simp only [Nat.add_zero, List.getElem?_cons_zero, Option.getD_some] at h0
        simp [effAddrs, h0, ht]

/-- A run that fails reports its first offending address, by ascending offset (R57, R193). -/
theorem effAddrs_error : ∀ (n base : Nat) (f : Fault), effAddrs cfg base n = .error f →
    ∃ k, k < n ∧ effAddr cfg (base + k) = .error f ∧ ∀ j, j < k → ∃ a, effAddr cfg (base + j) = .ok a
  | 0, base, f, h => by cases h
  | n + 1, base, f, h => by
    unfold effAddrs at h
    split at h
    · next g hg => cases h; exact ⟨0, by omega, by simpa using hg, fun j hj => absurd hj (by omega)⟩
    · next a ha =>
      split at h
      · next g hg =>
        cases h
        obtain ⟨k, hk, he, hj⟩ := effAddrs_error n (base + 1) f hg
        refine ⟨k + 1, by omega, by rw [show base + (k + 1) = base + 1 + k by omega]; exact he, fun j hjk => ?_⟩
        cases j with
        | zero => exact ⟨a, by simpa using ha⟩
        | succ j =>
          obtain ⟨b, hb⟩ := hj j (by omega)
          exact ⟨b, by rw [show base + (j + 1) = base + 1 + j by omega]; exact hb⟩
      · cases h

/-- A run whose addresses are all good succeeds. -/
theorem effAddrs_exists (n base : Nat) (h : ∀ k, k < n → ∃ a, effAddr cfg (base + k) = .ok a) :
    ∃ as, effAddrs cfg base n = .ok as := by
  cases he : effAddrs cfg base n with
  | ok as => exact ⟨as, rfl⟩
  | error f =>
    obtain ⟨k, hk, hf, -⟩ := effAddrs_error n base f he
    obtain ⟨a, ha⟩ := h k hk
    rw [hf] at ha; cases ha

/-- A run raises the address at its first bad offset. -/
theorem effAddrs_first_bad {n base k : Nat} (hm : cfg.oob = .fault) (hk : k < n) (hbad : 0xFFF < base + k)
    (hfirst : ∀ j, j < k → base + j ≤ 0xFFF) : effAddrs cfg base n = .error (.outOfBoundsAccess (base + k)) := by
  cases he : effAddrs cfg base n with
  | ok as =>
    have := ((effAddrs_ok_iff n base as).1 he).2 k hk
    rw [effAddr_fault hm hbad] at this; cases this
  | error f =>
    obtain ⟨j, hj, hf, hall⟩ := effAddrs_error n base f he
    obtain ⟨-, hjbad, rfl⟩ := effAddr_error hf
    rcases Nat.lt_trichotomy j k with hlt | heq | hgt
    · exact absurd (hfirst j hlt) (by omega)
    · rw [heq]
    · obtain ⟨a, ha⟩ := hall k hgt
      rw [effAddr_fault hm hbad] at ha; cases ha

/-! ## Bytes of the state -/

/-- A byte written is read back at its own address and nowhere else (R54). -/
@[simp] theorem State.byteAt_setByte (s : State) (a b : Nat) (v : Byte) :
    (s.setByte a v).byteAt b = if b = a then v else s.byteAt b := by
  simp [State.byteAt, State.setByte]

/-- Writing bytes changes memory alone. -/
theorem State.setBytes_eq : ∀ (as : List Nat) (vs : List Byte) (s : State),
    s.setBytes as vs = { s with mem := (s.setBytes as vs).mem }
  | [], _, _ => rfl
  | _ :: _, [], _ => rfl
  | a :: as, v :: vs, s => by
    rw [State.setBytes, State.setBytes_eq as vs (s.setByte a v)]
    rfl

@[simp] theorem State.setBytes_cfg (s : State) (as : List Nat) (vs : List Byte) : (s.setBytes as vs).cfg = s.cfg := by
  rw [State.setBytes_eq]

@[simp] theorem State.setBytes_v (s : State) (as : List Nat) (vs : List Byte) : (s.setBytes as vs).v = s.v := by
  rw [State.setBytes_eq]

@[simp] theorem State.setBytes_i (s : State) (as : List Nat) (vs : List Byte) : (s.setBytes as vs).i = s.i := by
  rw [State.setBytes_eq]

@[simp] theorem State.setBytes_pc (s : State) (as : List Nat) (vs : List Byte) : (s.setBytes as vs).pc = s.pc := by
  rw [State.setBytes_eq]

@[simp] theorem State.setBytes_sp (s : State) (as : List Nat) (vs : List Byte) : (s.setBytes as vs).sp = s.sp := by
  rw [State.setBytes_eq]

@[simp] theorem State.setBytes_stack (s : State) (as : List Nat) (vs : List Byte) : (s.setBytes as vs).stack = s.stack := by
  rw [State.setBytes_eq]

@[simp] theorem State.setBytes_dt (s : State) (as : List Nat) (vs : List Byte) : (s.setBytes as vs).dt = s.dt := by
  rw [State.setBytes_eq]

@[simp] theorem State.setBytes_st (s : State) (as : List Nat) (vs : List Byte) : (s.setBytes as vs).st = s.st := by
  rw [State.setBytes_eq]

@[simp] theorem State.setBytes_fb (s : State) (as : List Nat) (vs : List Byte) : (s.setBytes as vs).fb = s.fb := by
  rw [State.setBytes_eq]

@[simp] theorem State.setBytes_keys (s : State) (as : List Nat) (vs : List Byte) : (s.setBytes as vs).keys = s.keys := by
  rw [State.setBytes_eq]

@[simp] theorem State.setBytes_draws (s : State) (as : List Nat) (vs : List Byte) : (s.setBytes as vs).draws = s.draws := by
  rw [State.setBytes_eq]

@[simp] theorem State.setBytes_reg (s : State) (as : List Nat) (vs : List Byte) (k : Nibble) :
    (s.setBytes as vs).reg k = s.reg k := by
  simp [State.reg]

@[simp] theorem State.setBytes_stackAt (s : State) (as : List Nat) (vs : List Byte) (j : Nat) :
    (s.setBytes as vs).stackAt j = s.stackAt j := by
  simp [State.stackAt]

/-- An address that is not among those written keeps its byte. -/
theorem State.byteAt_setBytes_of_not_mem : ∀ (as : List Nat) (vs : List Byte) (s : State) (b : Nat),
    b ∉ as → (s.setBytes as vs).byteAt b = s.byteAt b
  | [], _, _, _, _ => rfl
  | _ :: _, [], _, _, _ => rfl
  | a :: as, v :: vs, s, b, h => by
    rw [State.setBytes, State.byteAt_setBytes_of_not_mem as vs _ b (fun hb => h (by simp [hb])), State.byteAt_setByte,
      if_neg (fun e => h (by simp [e]))]

/-- Different addresses each receive their own byte. -/
theorem State.byteAt_setBytes : ∀ (as : List Nat) (vs : List Byte) (s : State) (k a : Nat) (v : Byte),
    as.Nodup → as[k]? = some a → vs[k]? = some v → (s.setBytes as vs).byteAt a = v
  | [], _, _, _, _, _, _, h, _ => by simp at h
  | _ :: _, [], _, _, _, _, _, _, h => by simp at h
  | b :: as, w :: vs, s, k, a, v, hn, ha, hv => by
    rw [List.nodup_cons] at hn
    cases k with
    | zero =>
      simp only [List.getElem?_cons_zero, Option.some.injEq] at ha hv
      subst ha hv
      rw [State.setBytes, State.byteAt_setBytes_of_not_mem as vs _ _ hn.1, State.byteAt_setByte, if_pos rfl]
    | succ k =>
      simp only [List.getElem?_cons_succ] at ha hv
      exact State.byteAt_setBytes as vs (s.setByte b w) k a v hn.2 ha hv

/-- Writing inside memory keeps the canonical form. -/
theorem State.setBytes_mem_wf : ∀ (as : List Nat) (vs : List Byte) (s : State),
    (∀ a ∈ as, a < memSize) → Memory.wf s.cfg s.mem → Memory.wf s.cfg (s.setBytes as vs).mem
  | [], _, _, _, h => h
  | _ :: _, [], _, _, h => h
  | a :: as, v :: vs, s, ha, h =>
    State.setBytes_mem_wf as vs (s.setByte a v) (fun b hb => ha b (by simp [hb])) (Memory.wf_write h (ha a (by simp)))

/-! ## Runs of bytes (R57 to R60) -/

/-- A run of reads gives the byte at each effective address. -/
theorem State.readRun_ok {s : State} {base n : Nat} {bs : List Byte} (h : s.readRun base n = .ok bs) :
    bs.length = n ∧ ∀ k, k < n → ∃ a, effAddr s.cfg (base + k) = .ok a ∧ bs[k]? = some (s.byteAt a) := by
  unfold State.readRun at h
  split at h
  · cases h
  · next as has =>
    cases h
    obtain ⟨hl, hk⟩ := (effAddrs_ok_iff n base as).1 has
    refine ⟨by simp [hl], fun k hkn => ⟨as[k]?.getD 0, hk k hkn, ?_⟩⟩
    simp [hl, hkn]

theorem State.readRun_exists {s : State} {base n : Nat} (h : ∀ k, k < n → ∃ a, effAddr s.cfg (base + k) = .ok a) :
    ∃ bs, s.readRun base n = .ok bs := by
  obtain ⟨as, has⟩ := effAddrs_exists n base h
  exact ⟨as.map s.byteAt, by simp [State.readRun, has]⟩

theorem State.readRun_error {s : State} {base n : Nat} {f : Fault} (h : s.readRun base n = .error f) :
    effAddrs s.cfg base n = .error f := by
  unfold State.readRun at h
  split at h
  · next g hg => cases h; exact hg
  · cases h

/-- What a run of at most 4096 writes does: each effective address holds its byte, every other address and everything
else is unchanged, and the canonical form is kept. -/
theorem State.writeRun_ok {s t : State} {base : Nat} {vs : List Byte} (hlen : vs.length ≤ 4096)
    (h : s.writeRun base vs = .ok t) :
    t = { s with mem := t.mem } ∧
    (∀ k v a, vs[k]? = some v → effAddr s.cfg (base + k) = .ok a → t.byteAt a = v) ∧
    (∀ b, (∀ k, k < vs.length → effAddr s.cfg (base + k) ≠ .ok b) → t.byteAt b = s.byteAt b) ∧
    (Memory.wf s.cfg s.mem → Memory.wf s.cfg t.mem) := by
  unfold State.writeRun at h
  split at h
  · cases h
  · next as has =>
    cases h
    obtain ⟨hl, hk⟩ := (effAddrs_ok_iff _ base as).1 has
    have hget : ∀ k, k < as.length → effAddr s.cfg (base + k) = .ok (as[k]?.getD 0) := fun k hk' => hk k (hl ▸ hk')
    have hnd : as.Nodup := by
      rw [List.nodup_iff_injective_getElem]
      intro x y hxy
      have hx := hget x.1 x.2
      have hy := hget y.1 y.2
      simp only [x.2, y.2, List.getElem?_eq_getElem, Option.getD_some] at hx hy
      have hxy' : as[x.1] = as[y.1] := hxy
      rw [hxy'] at hx
      exact Fin.ext (effAddr_inj (show x.1 < 4096 by have := x.2; omega) (show y.1 < 4096 by have := y.2; omega) hx hy)
    refine ⟨State.setBytes_eq as vs s, fun k v a hv ha => ?_, fun b hb => ?_, fun hw => ?_⟩
    · have hkv : k < vs.length := (List.getElem?_eq_some_iff.1 hv).1
      have hka := hk k hkv
      rw [ha] at hka
      have hlt : k < as.length := by omega
      refine State.byteAt_setBytes as vs s k a v hnd ?_ hv
      rw [List.getElem?_eq_getElem hlt] at hka ⊢
      simpa using (Except.ok.inj hka).symm
    · refine State.byteAt_setBytes_of_not_mem as vs s b fun hm => ?_
      obtain ⟨k, hkl, rfl⟩ := List.getElem_of_mem hm
      exact hb k (by omega) (by simpa [hkl] using hget k hkl)
    · refine State.setBytes_mem_wf as vs s (fun a ha => ?_) hw
      obtain ⟨k, hkl, rfl⟩ := List.getElem_of_mem ha
      have := hget k hkl
      simp only [hkl, List.getElem?_eq_getElem, Option.getD_some] at this
      exact effAddr_lt this

theorem State.writeRun_exists {s : State} {base : Nat} {vs : List Byte}
    (h : ∀ k, k < vs.length → ∃ a, effAddr s.cfg (base + k) = .ok a) : ∃ t, s.writeRun base vs = .ok t := by
  obtain ⟨as, has⟩ := effAddrs_exists vs.length base h
  exact ⟨s.setBytes as vs, by simp [State.writeRun, has]⟩

theorem State.writeRun_error {s : State} {base : Nat} {vs : List Byte} {f : Fault} (h : s.writeRun base vs = .error f) :
    effAddrs s.cfg base vs.length = .error f := by
  unfold State.writeRun at h
  split at h
  · next g hg => cases h; exact hg
  · cases h

/-! ## Register runs (R151) -/

@[simp] theorem State.regsUpTo_length (s : State) (x : Nibble) : (s.regsUpTo x).length = x.toNat + 1 := by
  have := x.isLt
  simp [State.regsUpTo]; omega

/-- The `k`-th byte of `V[0]` to `V[x]` is `V[k]`. -/
theorem State.regsUpTo_get (s : State) {x k : Nibble} (h : k.toNat ≤ x.toNat) :
    (s.regsUpTo x)[k.toNat]? = some (s.reg k) := by
  have hk : k.toNat < 16 := k.isLt
  have : k.toNat < x.toNat + 1 := by omega
  simp [State.regsUpTo, State.reg, this]

/-! ## Loading an image (R228) -/

/-- Loading changes memory alone. -/
theorem State.loadBytes_eq : ∀ (bs : List Byte) (a : Nat) (s : State),
    s.loadBytes a bs = { s with mem := (s.loadBytes a bs).mem }
  | [], _, _ => rfl
  | b :: bs, a, s => by
    rw [State.loadBytes, State.loadBytes_eq bs (a + 1) (s.setByte a b)]
    rfl

/-- After loading, each byte of the image is at its address and every other address is unchanged. -/
theorem State.byteAt_loadBytes : ∀ (bs : List Byte) (a b : Nat) (s : State),
    (s.loadBytes a bs).byteAt b = if a ≤ b ∧ b < a + bs.length then (bs[b - a]?).getD 0 else s.byteAt b
  | [], a, b, s => by
    rw [if_neg (fun h => by simp only [List.length_nil] at h; omega)]; rfl
  | v :: bs, a, b, s => by
    rw [State.loadBytes, State.byteAt_loadBytes bs (a + 1) b, State.byteAt_setByte]
    by_cases hba : b = a
    · subst hba
      rw [if_neg (by omega), if_pos rfl, if_pos (by simp)]
      simp only [Nat.sub_self, List.getElem?_cons_zero, Option.getD_some]
    · by_cases hin : a + 1 ≤ b ∧ b < a + 1 + bs.length
      · rw [if_pos hin, if_pos (by simp only [List.length_cons]; omega), show b - a = (b - (a + 1)) + 1 by omega]
        simp
      · rw [if_neg hin, if_neg hba, if_neg (by simp only [List.length_cons]; omega)]

/-- Loading inside memory keeps the canonical form. -/
theorem State.loadBytes_mem_wf : ∀ (bs : List Byte) (a : Nat) (s : State), a + bs.length ≤ 4096 →
    Memory.wf s.cfg s.mem → Memory.wf s.cfg (s.loadBytes a bs).mem
  | [], _, _, _, h => h
  | v :: bs, a, s, ha, h => by
    simp only [List.length_cons] at ha
    exact State.loadBytes_mem_wf bs (a + 1) (s.setByte a v) (by omega) (Memory.wf_write h (show a < 4096 by omega))

end Sys2Proof.Machine
end

