-- ==== Sys2Proof/Laws/DecodeLaws.lean ====
section
/-! SUPPORT. The fields of an encoded word: each format's fields read back what was packed (30_encoding.md R76, R77), by way
of the number a word stands for. -/

namespace Sys2Proof

/-! ## Words and fields as numbers -/

theorem packNNN_toNat (f : Nibble) (a : Addr) : (packNNN f a).toNat = f.toNat * 4096 + a.toNat := by
  refine (BitVec.toNat_append f a).trans ?_
  rw [← Nat.shiftLeft_add_eq_or_of_lt a.isLt, Nat.shiftLeft_eq]

theorem packXNN_toNat (f x : Nibble) (nn : Byte) :
    (packXNN f x nn).toNat = f.toNat * 4096 + x.toNat * 256 + nn.toNat := by
  have h : (x ++ nn : BitVec 12).toNat = x.toNat * 256 + nn.toNat := by
    refine (BitVec.toNat_append x nn).trans ?_
    rw [← Nat.shiftLeft_add_eq_or_of_lt nn.isLt, Nat.shiftLeft_eq]
  exact (packNNN_toNat f (x ++ nn)).trans (by rw [h]; omega)

theorem packXYN_toNat (f x y n : Nibble) :
    (packXYN f x y n).toNat = f.toNat * 4096 + x.toNat * 256 + y.toNat * 16 + n.toNat := by
  have h : (y ++ n : BitVec 8).toNat = y.toNat * 16 + n.toNat := by
    refine (BitVec.toNat_append y n).trans ?_
    rw [← Nat.shiftLeft_add_eq_or_of_lt n.isLt, Nat.shiftLeft_eq]
  exact (packXNN_toNat f x (y ++ n)).trans (by rw [h]; omega)

theorem wordOfBytes_toNat (hi lo : Byte) : (wordOfBytes hi lo).toNat = hi.toNat * 256 + lo.toNat := by
  refine (BitVec.toNat_append hi lo).trans ?_
  rw [← Nat.shiftLeft_add_eq_or_of_lt lo.isLt, Nat.shiftLeft_eq]

theorem fieldF_toNat (w : Word) : (fieldF w).toNat = w.toNat / 4096 % 16 := by
  simp [fieldF, BitVec.extractLsb'_toNat, Nat.shiftRight_eq_div_pow]
theorem fieldX_toNat (w : Word) : (fieldX w).toNat = w.toNat / 256 % 16 := by
  simp [fieldX, BitVec.extractLsb'_toNat, Nat.shiftRight_eq_div_pow]
theorem fieldY_toNat (w : Word) : (fieldY w).toNat = w.toNat / 16 % 16 := by
  simp [fieldY, BitVec.extractLsb'_toNat, Nat.shiftRight_eq_div_pow]
theorem fieldN_toNat (w : Word) : (fieldN w).toNat = w.toNat % 16 := by
  simp [fieldN, BitVec.extractLsb'_toNat]
theorem fieldNN_toNat (w : Word) : (fieldNN w).toNat = w.toNat % 256 := by
  simp [fieldNN, BitVec.extractLsb'_toNat]
theorem fieldNNN_toNat (w : Word) : (fieldNNN w).toNat = w.toNat % 4096 := by
  simp [fieldNNN, BitVec.extractLsb'_toNat]
theorem highByte_toNat (w : Word) : (highByte w).toNat = w.toNat / 256 := by
  have := w.isLt
  simp [highByte, BitVec.extractLsb'_toNat, Nat.shiftRight_eq_div_pow]; omega
theorem lowByte_toNat (w : Word) : (lowByte w).toNat = w.toNat % 256 := by
  simp [lowByte, BitVec.extractLsb'_toNat]

/-! ## Fields of packed words -/

@[simp] theorem fieldF_packNNN (f : Nibble) (a : Addr) : fieldF (packNNN f a) = f :=
  BitVec.eq_of_toNat_eq (by rw [fieldF_toNat, packNNN_toNat]; omega)

@[simp] theorem fieldNNN_packNNN (f : Nibble) (a : Addr) : fieldNNN (packNNN f a) = a :=
  BitVec.eq_of_toNat_eq (by rw [fieldNNN_toNat, packNNN_toNat]; omega)

@[simp] theorem fieldX_packNNN (f : Nibble) (a : Addr) : fieldX (packNNN f a) = a.extractLsb' 8 4 :=
  BitVec.eq_of_toNat_eq (by
    rw [fieldX_toNat, packNNN_toNat, BitVec.extractLsb'_toNat, Nat.shiftRight_eq_div_pow]; omega)

@[simp] theorem fieldF_packXNN (f x : Nibble) (nn : Byte) : fieldF (packXNN f x nn) = f :=
  BitVec.eq_of_toNat_eq (by rw [fieldF_toNat, packXNN_toNat]; omega)

@[simp] theorem fieldX_packXNN (f x : Nibble) (nn : Byte) : fieldX (packXNN f x nn) = x :=
  BitVec.eq_of_toNat_eq (by rw [fieldX_toNat, packXNN_toNat]; omega)

@[simp] theorem fieldNN_packXNN (f x : Nibble) (nn : Byte) : fieldNN (packXNN f x nn) = nn :=
  BitVec.eq_of_toNat_eq (by rw [fieldNN_toNat, packXNN_toNat]; omega)

@[simp] theorem fieldF_packXYN (f x y n : Nibble) : fieldF (packXYN f x y n) = f :=
  BitVec.eq_of_toNat_eq (by rw [fieldF_toNat, packXYN_toNat]; omega)

@[simp] theorem fieldX_packXYN (f x y n : Nibble) : fieldX (packXYN f x y n) = x :=
  BitVec.eq_of_toNat_eq (by rw [fieldX_toNat, packXYN_toNat]; omega)

@[simp] theorem fieldY_packXYN (f x y n : Nibble) : fieldY (packXYN f x y n) = y :=
  BitVec.eq_of_toNat_eq (by rw [fieldY_toNat, packXYN_toNat]; omega)

@[simp] theorem fieldN_packXYN (f x y n : Nibble) : fieldN (packXYN f x y n) = n :=
  BitVec.eq_of_toNat_eq (by rw [fieldN_toNat, packXYN_toNat]; omega)

/-! ## A word is made of its fields -/

theorem packNNN_fields (w : Word) : packNNN (fieldF w) (fieldNNN w) = w :=
  BitVec.eq_of_toNat_eq (by rw [packNNN_toNat, fieldF_toNat, fieldNNN_toNat]; omega)

theorem packXNN_fields (w : Word) : packXNN (fieldF w) (fieldX w) (fieldNN w) = w :=
  BitVec.eq_of_toNat_eq (by rw [packXNN_toNat, fieldF_toNat, fieldX_toNat, fieldNN_toNat]; omega)

theorem packXYN_fields (w : Word) : packXYN (fieldF w) (fieldX w) (fieldY w) (fieldN w) = w :=
  BitVec.eq_of_toNat_eq (by rw [packXYN_toNat, fieldF_toNat, fieldX_toNat, fieldY_toNat, fieldN_toNat]; omega)

/-- The two bytes of a word make the word again (R50). -/
@[simp] theorem wordOfBytes_bytes (w : Word) : wordOfBytes (highByte w) (lowByte w) = w :=
  BitVec.eq_of_toNat_eq (by rw [wordOfBytes_toNat, highByte_toNat, lowByte_toNat]; omega)

/-! ## Dispatch by the family nibble (R79) -/

/-- A nibble is one of the sixteen. -/
theorem nibble_cases : ∀ f : Nibble, f = 0x0 ∨ f = 0x1 ∨ f = 0x2 ∨ f = 0x3 ∨ f = 0x4 ∨ f = 0x5 ∨ f = 0x6 ∨ f = 0x7 ∨
    f = 0x8 ∨ f = 0x9 ∨ f = 0xA ∨ f = 0xB ∨ f = 0xC ∨ f = 0xD ∨ f = 0xE ∨ f = 0xF := by decide

theorem decode_family0 {w : Word} (h : fieldF w = 0x0) : decode w = decodeFamily0 w := by rw [decode, h]; rfl
theorem decode_family1 {w : Word} (h : fieldF w = 0x1) : decode w = .known (.jp (fieldNNN w)) := by rw [decode, h]; rfl
theorem decode_family2 {w : Word} (h : fieldF w = 0x2) : decode w = .known (.call (fieldNNN w)) := by rw [decode, h]; rfl
theorem decode_family3 {w : Word} (h : fieldF w = 0x3) : decode w = .known (.seImm (fieldX w) (fieldNN w)) := by rw [decode, h]; rfl
theorem decode_family4 {w : Word} (h : fieldF w = 0x4) : decode w = .known (.sneImm (fieldX w) (fieldNN w)) := by rw [decode, h]; rfl
theorem decode_family5 {w : Word} (h : fieldF w = 0x5) : decode w = if fieldN w = 0 then .known (.seReg (fieldX w) (fieldY w)) else .unknown w := by rw [decode, h]; rfl
theorem decode_family6 {w : Word} (h : fieldF w = 0x6) : decode w = .known (.ldImm (fieldX w) (fieldNN w)) := by rw [decode, h]; rfl
theorem decode_family7 {w : Word} (h : fieldF w = 0x7) : decode w = .known (.addImm (fieldX w) (fieldNN w)) := by rw [decode, h]; rfl
theorem decode_family8 {w : Word} (h : fieldF w = 0x8) : decode w = decodeFamily8 w := by rw [decode, h]; rfl
theorem decode_family9 {w : Word} (h : fieldF w = 0x9) : decode w = if fieldN w = 0 then .known (.sneReg (fieldX w) (fieldY w)) else .unknown w := by rw [decode, h]; rfl
theorem decode_familyA {w : Word} (h : fieldF w = 0xA) : decode w = .known (.ldI (fieldNNN w)) := by rw [decode, h]; rfl
theorem decode_familyB {w : Word} (h : fieldF w = 0xB) : decode w = .known (.jpOff (fieldX w) (fieldNNN w)) := by rw [decode, h]; rfl
theorem decode_familyC {w : Word} (h : fieldF w = 0xC) : decode w = .known (.rnd (fieldX w) (fieldNN w)) := by rw [decode, h]; rfl
theorem decode_familyD {w : Word} (h : fieldF w = 0xD) : decode w = .known (.drw (fieldX w) (fieldY w) (fieldN w)) := by rw [decode, h]; rfl
theorem decode_familyE {w : Word} (h : fieldF w = 0xE) : decode w = decodeFamilyE w := by rw [decode, h]; rfl
theorem decode_familyF {w : Word} (h : fieldF w = 0xF) : decode w = decodeFamilyF w := by rw [decode, h]; rfl

end Sys2Proof
end

