-- ==== Sys2Proof/Laws/DisplayLaws.lean ====
section
/-! SUPPORT. What the display operations do: one pixel toggled, a sprite drawn as the list of its pixels, and the law of a
whole sprite (43_display.md R163 to R165). -/

namespace Sys2Proof.Machine

/-- A toggle inverts its own pixel and leaves every other pixel alone. -/
theorem Display.pixel_toggle (fb : Display) (px qx : Fin 64) (py qy : Fin 32) :
    (Display.toggle fb px py).pixel qx qy = if (qx, qy) = (px, py) then !fb.pixel px py else fb.pixel qx qy := by
  unfold Display.toggle Display.pixel
  by_cases hy : qy = py
  · subst hy
    by_cases hx : qx = px
    · subst hx; simp
    · have : px.val ≠ qx.val := fun e => hx (Fin.ext e.symm)
      simp [hx, Vector.getElem_set_ne, this]
  · have : py.val ≠ qy.val := fun e => hy (Fin.ext e.symm)
    simp [hy, Vector.getElem_set_ne, this]

@[simp] theorem Display.pixel_clear (px : Fin 64) (py : Fin 32) : Display.clear.pixel px py = false := by
  simp [Display.clear, Display.pixel]

/-- Two displays with the same pixels are equal. -/
theorem Display.ext_pixel {fb gb : Display} (h : ∀ px py, fb.pixel px py = gb.pixel px py) : fb = gb := by
  refine Vector.ext fun y hy => Vector.ext fun x hx => ?_
  exact h ⟨x, hx⟩ ⟨y, hy⟩

/-! ## A sprite as the list of its pixels -/

/-- One pixel toggled, a lit one counted as a collision. -/
def Drawing.hit (d : Drawing) (p : Fin 64 × Fin 32) : Drawing :=
  (d.1.toggle p.1 p.2, d.2 || d.1.pixel p.1 p.2)

/-- The display pixels on which the 1 bits of row `r` land (R164). -/
def rowPixels (x0 y0 r : Nat) (b : Byte) : List (Fin 64 × Fin 32) :=
  ((List.range 8).filter fun c => b.getLsbD (7 - c)).map fun c => (Fin.ofNat 64 (x0 + c), Fin.ofNat 32 (y0 + r))

/-- The display pixels on which the 1 bits of the rows from `r` on land (R164). -/
def spritePixels (x0 y0 : Nat) : Nat → List Byte → List (Fin 64 × Fin 32)
  | _, [] => []
  | r, b :: bs => rowPixels x0 y0 r b ++ spritePixels x0 y0 (r + 1) bs

theorem drawRow_eq (x0 y0 r : Nat) (b : Byte) (d : Drawing) :
    drawRow x0 y0 r b d = (rowPixels x0 y0 r b).foldl Drawing.hit d := by
  rw [drawRow, rowPixels, List.foldl_map, List.foldl_filter]
  rfl

theorem drawRows_eq : ∀ (x0 y0 r : Nat) (bs : List Byte) (d : Drawing),
    drawRows x0 y0 r bs d = (spritePixels x0 y0 r bs).foldl Drawing.hit d
  | _, _, _, [], _ => rfl
  | x0, y0, r, b :: bs, d => by
    rw [drawRows, drawRows_eq, drawRow_eq, spritePixels, List.foldl_append]

/-- Toggling a list of different pixels inverts exactly those, and collides exactly when one of them was lit. -/
theorem Drawing.foldl_hit : ∀ (ps : List (Fin 64 × Fin 32)) (d : Drawing), ps.Nodup →
    (∀ qx qy, (ps.foldl Drawing.hit d).1.pixel qx qy = (d.1.pixel qx qy ^^ decide ((qx, qy) ∈ ps))) ∧
    (ps.foldl Drawing.hit d).2 = (d.2 || ps.any fun p => d.1.pixel p.1 p.2)
  | [], d, _ => by simp
  | p :: ps, d, hn => by
    rw [List.nodup_cons] at hn
    obtain ⟨ih1, ih2⟩ := Drawing.foldl_hit ps (d.hit p) hn.2
    rw [List.foldl_cons]
    constructor
    · intro qx qy
      rw [ih1, Drawing.hit, Display.pixel_toggle]
      by_cases hq : (qx, qy) = p
      · subst hq
        simp [hn.1]
      · have hq' : ¬((qx, qy) = (p.1, p.2)) := hq
        rw [if_neg hq']
        simp [hq]
    · rw [ih2, List.any_cons, ← Bool.or_assoc]
      congr 1
      rw [Bool.eq_iff_iff, List.any_eq_true, List.any_eq_true]
      refine exists_congr fun q => and_congr_right fun hq => ?_
      have hqp : ¬((q.1, q.2) = (p.1, p.2)) := fun e => hn.1 (by rw [show q = p from e] at hq; exact hq)
      rw [Drawing.hit, Display.pixel_toggle, if_neg hqp]

/-- Which pixels a row covers. -/
theorem mem_rowPixels {x0 y0 r : Nat} {b : Byte} {qx : Fin 64} {qy : Fin 32} :
    (qx, qy) ∈ rowPixels x0 y0 r b ↔
      ∃ c, c < 8 ∧ b.getLsbD (7 - c) = true ∧ qx.val = (x0 + c) % 64 ∧ qy.val = (y0 + r) % 32 := by
  simp only [rowPixels, List.mem_map, List.mem_filter, List.mem_range, Prod.mk.injEq]
  constructor
  · rintro ⟨c, ⟨hc, hb⟩, hx, hy⟩
    exact ⟨c, hc, hb, by rw [← hx]; rfl, by rw [← hy]; rfl⟩
  · rintro ⟨c, hc, hb, hx, hy⟩
    exact ⟨c, ⟨hc, hb⟩, Fin.ext hx.symm, Fin.ext hy.symm⟩

/-- Which pixels a sprite covers. -/
theorem mem_spritePixels : ∀ {x0 y0 r : Nat} {bs : List Byte} {qx : Fin 64} {qy : Fin 32},
    (qx, qy) ∈ spritePixels x0 y0 r bs ↔
      ∃ k c b, bs[k]? = some b ∧ c < 8 ∧ b.getLsbD (7 - c) = true ∧ qx.val = (x0 + c) % 64 ∧ qy.val = (y0 + (r + k)) % 32
  | x0, y0, r, [], qx, qy => by simp [spritePixels]
  | x0, y0, r, b :: bs, qx, qy => by
    rw [spritePixels, List.mem_append, mem_rowPixels, mem_spritePixels]
    constructor
    · rintro (⟨c, hc, hb, hx, hy⟩ | ⟨k, c, b', hk, hc, hb, hx, hy⟩)
      · exact ⟨0, c, b, rfl, hc, hb, hx, hy⟩
      · exact ⟨k + 1, c, b', hk, hc, hb, hx, by rw [hy]; congr 1; omega⟩
    · rintro ⟨k, c, b', hk, hc, hb, hx, hy⟩
      cases k with
      | zero =>
        simp only [List.getElem?_cons_zero, Option.some.injEq] at hk
        subst hk
        exact .inl ⟨c, hc, hb, hx, hy⟩
      | succ k => exact .inr ⟨k, c, b', hk, hc, hb, hx, by rw [hy]; congr 1; omega⟩

theorem rowPixels_nodup (x0 y0 r : Nat) (b : Byte) : (rowPixels x0 y0 r b).Nodup := by
  refine List.Nodup.map_on (fun c hc d hd h => ?_) (List.nodup_range.filter _)
  simp only [List.mem_filter, List.mem_range] at hc hd
  have hx : (x0 + c) % 64 = (x0 + d) % 64 := congrArg (fun p : Fin 64 × Fin 32 => p.1.val) h
  omega

/-- R164: no two pixels of one sprite land on the same display pixel. -/
theorem spritePixels_nodup : ∀ (x0 y0 r : Nat) (bs : List Byte), bs.length ≤ 32 → (spritePixels x0 y0 r bs).Nodup
  | _, _, _, [], _ => List.nodup_nil
  | x0, y0, r, b :: bs, hl => by
    simp only [List.length_cons] at hl
    rw [spritePixels, List.nodup_append']
    refine ⟨rowPixels_nodup x0 y0 r b, spritePixels_nodup x0 y0 (r + 1) bs (by omega), ?_⟩
    rintro ⟨qx, qy⟩ h1 h2
    obtain ⟨-, -, -, -, hy⟩ := mem_rowPixels.1 h1
    obtain ⟨k, -, b', hk, -, -, -, hy'⟩ := mem_spritePixels.1 h2
    have hkl : k < bs.length := (List.getElem?_eq_some_iff.1 hk).1
    omega

/-- The law of a sprite of at most 32 rows: every pixel it covers is inverted and no other, and it collides exactly when
a covered pixel was lit before (R163, R165). -/
theorem drawRows_spec (x0 y0 : Nat) (bs : List Byte) (fb : Display) (hl : bs.length ≤ 32) :
    (∀ qx qy, (drawRows x0 y0 0 bs (fb, false)).1.pixel qx qy =
      (fb.pixel qx qy ^^ decide ((qx, qy) ∈ spritePixels x0 y0 0 bs))) ∧
    ((drawRows x0 y0 0 bs (fb, false)).2 = true ↔
      ∃ qx qy, (qx, qy) ∈ spritePixels x0 y0 0 bs ∧ fb.pixel qx qy = true) := by
  rw [drawRows_eq]
  obtain ⟨h1, h2⟩ := Drawing.foldl_hit (spritePixels x0 y0 0 bs) (fb, false) (spritePixels_nodup x0 y0 0 bs hl)
  refine ⟨h1, ?_⟩
  rw [h2, Bool.false_or, List.any_eq_true]
  constructor
  · rintro ⟨⟨qx, qy⟩, hm, hp⟩; exact ⟨qx, qy, hm, hp⟩
  · rintro ⟨qx, qy, hm, hp⟩; exact ⟨(qx, qy), hm, hp⟩

end Sys2Proof.Machine
end

