-- ==== Sys2Proof/Laws/PerInstr.lean ====
section
/-! SUPPORT. The per-instruction family `FixedBits`: the encoder puts exactly the fixed bits of its row of the opcode table
(spec/opcode_table.json, columns match and mask; 30_encoding.md R80, R83) into every instruction's word. -/

namespace Sys2Proof.Laws.FixedBits

/-- The `match` and `mask` columns of an instruction's row. -/
def row : Instr → Word × Word
  | .cls => (0x00E0, 0xFFFF)
  | .ret => (0x00EE, 0xFFFF)
  | .sys _ => (0x0000, 0xF000)
  | .jp _ => (0x1000, 0xF000)
  | .call _ => (0x2000, 0xF000)
  | .seImm _ _ => (0x3000, 0xF000)
  | .sneImm _ _ => (0x4000, 0xF000)
  | .seReg _ _ => (0x5000, 0xF00F)
  | .ldImm _ _ => (0x6000, 0xF000)
  | .addImm _ _ => (0x7000, 0xF000)
  | .ldReg _ _ => (0x8000, 0xF00F)
  | .orReg _ _ => (0x8001, 0xF00F)
  | .andReg _ _ => (0x8002, 0xF00F)
  | .xorReg _ _ => (0x8003, 0xF00F)
  | .addReg _ _ => (0x8004, 0xF00F)
  | .subReg _ _ => (0x8005, 0xF00F)
  | .shrReg _ _ => (0x8006, 0xF00F)
  | .subnReg _ _ => (0x8007, 0xF00F)
  | .shlReg _ _ => (0x800E, 0xF00F)
  | .sneReg _ _ => (0x9000, 0xF00F)
  | .ldI _ => (0xA000, 0xF000)
  | .jpOff _ _ => (0xB000, 0xF000)
  | .rnd _ _ => (0xC000, 0xF000)
  | .drw _ _ _ => (0xD000, 0xF000)
  | .skp _ => (0xE09E, 0xF0FF)
  | .sknp _ => (0xE0A1, 0xF0FF)
  | .ldVxDt _ => (0xF007, 0xF0FF)
  | .ldVxK _ => (0xF00A, 0xF0FF)
  | .ldDtVx _ => (0xF015, 0xF0FF)
  | .ldStVx _ => (0xF018, 0xF0FF)
  | .addIVx _ => (0xF01E, 0xF0FF)
  | .ldFVx _ => (0xF029, 0xF0FF)
  | .ldBVx _ => (0xF033, 0xF0FF)
  | .stRegs _ => (0xF055, 0xF0FF)
  | .ldRegs _ => (0xF065, 0xF0FF)

/-- Under the row's mask the instruction's word is the row's match. -/
def Statement (i : Instr) : Prop := encode i &&& (row i).2 = (row i).1

theorem packNNN_and (f g : Nibble) (a b : Addr) : packNNN f a &&& packNNN g b = packNNN (f &&& g) (a &&& b) :=
  BitVec.and_append

theorem packXNN_and (f g x z : Nibble) (a b : Byte) :
    packXNN f x a &&& packXNN g z b = packXNN (f &&& g) (x &&& z) (a &&& b) :=
  (packNNN_and f g (x ++ a) (z ++ b)).trans (congrArg (packNNN (f &&& g)) BitVec.and_append)

theorem packXYN_and (f g x z y u n m : Nibble) :
    packXYN f x y n &&& packXYN g z u m = packXYN (f &&& g) (x &&& z) (y &&& u) (n &&& m) :=
  (packXNN_and f g x z (y ++ n) (u ++ m)).trans (congrArg (packXNN (f &&& g) (x &&& z)) BitVec.and_append)

theorem nibble_and_F (f : Nibble) : f &&& 0xF = f := BitVec.and_allOnes

theorem nibble_and_0 (f : Nibble) : f &&& 0 = 0 := BitVec.and_zero

theorem addr_and_0 (a : Addr) : a &&& 0 = 0 := BitVec.and_zero

theorem byte_and_FF (b : Byte) : b &&& 0xFF = b := BitVec.and_allOnes

/-- The high nibble of a word under a mask of the high nibble. -/
theorem packNNN_masked (f : Nibble) (a : Addr) : packNNN f a &&& 0xF000 = packNNN f 0 := by
  rw [show (0xF000 : Word) = packNNN 0xF 0 by decide, packNNN_and, nibble_and_F, addr_and_0]

theorem packXNN_masked (f x : Nibble) (nn : Byte) : packXNN f x nn &&& 0xF000 = packNNN f 0 :=
  packNNN_masked f (x ++ nn)

theorem packXYN_masked (f x y n : Nibble) : packXYN f x y n &&& 0xF000 = packNNN f 0 :=
  packNNN_masked f (x ++ (y ++ n : BitVec 8) : BitVec 12)

/-- The outer nibbles of a word under a mask of the outer nibbles. -/
theorem packXYN_outer (f x y n : Nibble) : packXYN f x y n &&& 0xF00F = packXYN f 0 0 n := by
  rw [show (0xF00F : Word) = packXYN 0xF 0 0 0xF by decide, packXYN_and, nibble_and_F, nibble_and_F, nibble_and_0,
    nibble_and_0]

/-- The high nibble and the low byte of a word under their mask. -/
theorem packXNN_outer (f x : Nibble) (nn : Byte) : packXNN f x nn &&& 0xF0FF = packXNN f 0 nn := by
  rw [show (0xF0FF : Word) = packXNN 0xF 0 0xFF by decide, packXNN_and, nibble_and_F, byte_and_FF, nibble_and_0]

theorem cls : Statement .cls := by unfold Statement; decide
theorem ret : Statement .ret := by unfold Statement; decide
theorem sys (nnn : Addr) : Statement (.sys nnn) := (packNNN_masked _ _).trans rfl
theorem jp (nnn : Addr) : Statement (.jp nnn) := (packNNN_masked _ _).trans rfl
theorem call (nnn : Addr) : Statement (.call nnn) := (packNNN_masked _ _).trans rfl
theorem seImm (x : Nibble) (nn : Byte) : Statement (.seImm x nn) := (packXNN_masked _ _ _).trans rfl
theorem sneImm (x : Nibble) (nn : Byte) : Statement (.sneImm x nn) := (packXNN_masked _ _ _).trans rfl
theorem seReg (x : Nibble) (y : Nibble) : Statement (.seReg x y) := (packXYN_outer _ _ _ _).trans rfl
theorem ldImm (x : Nibble) (nn : Byte) : Statement (.ldImm x nn) := (packXNN_masked _ _ _).trans rfl
theorem addImm (x : Nibble) (nn : Byte) : Statement (.addImm x nn) := (packXNN_masked _ _ _).trans rfl
theorem ldReg (x : Nibble) (y : Nibble) : Statement (.ldReg x y) := (packXYN_outer _ _ _ _).trans rfl
theorem orReg (x : Nibble) (y : Nibble) : Statement (.orReg x y) := (packXYN_outer _ _ _ _).trans rfl
theorem andReg (x : Nibble) (y : Nibble) : Statement (.andReg x y) := (packXYN_outer _ _ _ _).trans rfl
theorem xorReg (x : Nibble) (y : Nibble) : Statement (.xorReg x y) := (packXYN_outer _ _ _ _).trans rfl
theorem addReg (x : Nibble) (y : Nibble) : Statement (.addReg x y) := (packXYN_outer _ _ _ _).trans rfl
theorem subReg (x : Nibble) (y : Nibble) : Statement (.subReg x y) := (packXYN_outer _ _ _ _).trans rfl
theorem shrReg (x : Nibble) (y : Nibble) : Statement (.shrReg x y) := (packXYN_outer _ _ _ _).trans rfl
theorem subnReg (x : Nibble) (y : Nibble) : Statement (.subnReg x y) := (packXYN_outer _ _ _ _).trans rfl
theorem shlReg (x : Nibble) (y : Nibble) : Statement (.shlReg x y) := (packXYN_outer _ _ _ _).trans rfl
theorem sneReg (x : Nibble) (y : Nibble) : Statement (.sneReg x y) := (packXYN_outer _ _ _ _).trans rfl
theorem ldI (nnn : Addr) : Statement (.ldI nnn) := (packNNN_masked _ _).trans rfl
theorem jpOff (x : Nibble) (nnn : Addr) : Statement (.jpOff x nnn) := (packNNN_masked _ _).trans rfl
theorem rnd (x : Nibble) (nn : Byte) : Statement (.rnd x nn) := (packXNN_masked _ _ _).trans rfl
theorem drw (x : Nibble) (y : Nibble) (n : Nibble) : Statement (.drw x y n) := (packXYN_masked _ _ _ _).trans rfl
theorem skp (x : Nibble) : Statement (.skp x) := (packXNN_outer _ _ _).trans rfl
theorem sknp (x : Nibble) : Statement (.sknp x) := (packXNN_outer _ _ _).trans rfl
theorem ldVxDt (x : Nibble) : Statement (.ldVxDt x) := (packXNN_outer _ _ _).trans rfl
theorem ldVxK (x : Nibble) : Statement (.ldVxK x) := (packXNN_outer _ _ _).trans rfl
theorem ldDtVx (x : Nibble) : Statement (.ldDtVx x) := (packXNN_outer _ _ _).trans rfl
theorem ldStVx (x : Nibble) : Statement (.ldStVx x) := (packXNN_outer _ _ _).trans rfl
theorem addIVx (x : Nibble) : Statement (.addIVx x) := (packXNN_outer _ _ _).trans rfl
theorem ldFVx (x : Nibble) : Statement (.ldFVx x) := (packXNN_outer _ _ _).trans rfl
theorem ldBVx (x : Nibble) : Statement (.ldBVx x) := (packXNN_outer _ _ _).trans rfl
theorem stRegs (x : Nibble) : Statement (.stRegs x) := (packXNN_outer _ _ _).trans rfl
theorem ldRegs (x : Nibble) : Statement (.ldRegs x) := (packXNN_outer _ _ _).trans rfl

end Sys2Proof.Laws.FixedBits
end

