-- ==== Sys2Proof/Laws/StepLaws.lean ====
section
/-! SUPPORT. What a step can do, and what the meanings that can stop can do: one inversion lemma each, which later proofs
cite instead of unfolding. -/

namespace Sys2Proof.Machine

section

/-! ## The arms of exec -/

variable (s : State) (nnn : Addr) (x y n : Nibble) (nn : Byte)

theorem exec_cls : exec .cls s = execCls s := rfl
theorem exec_ret : exec .ret s = execRet s := rfl
theorem exec_sys : exec (.sys nnn) s = execSys nnn s := rfl
theorem exec_jp : exec (.jp nnn) s = execJp nnn s := rfl
theorem exec_call : exec (.call nnn) s = execCall nnn s := rfl
theorem exec_seImm : exec (.seImm x nn) s = execSeImm x nn s := rfl
theorem exec_sneImm : exec (.sneImm x nn) s = execSneImm x nn s := rfl
theorem exec_seReg : exec (.seReg x y) s = execSeReg x y s := rfl
theorem exec_ldImm : exec (.ldImm x nn) s = execLdImm x nn s := rfl
theorem exec_addImm : exec (.addImm x nn) s = execAddImm x nn s := rfl
theorem exec_ldReg : exec (.ldReg x y) s = execLdReg x y s := rfl
theorem exec_orReg : exec (.orReg x y) s = execOrReg x y s := rfl
theorem exec_andReg : exec (.andReg x y) s = execAndReg x y s := rfl
theorem exec_xorReg : exec (.xorReg x y) s = execXorReg x y s := rfl
theorem exec_addReg : exec (.addReg x y) s = execAddReg x y s := rfl
theorem exec_subReg : exec (.subReg x y) s = execSubReg x y s := rfl
theorem exec_shrReg : exec (.shrReg x y) s = execShrReg x y s := rfl
theorem exec_subnReg : exec (.subnReg x y) s = execSubnReg x y s := rfl
theorem exec_shlReg : exec (.shlReg x y) s = execShlReg x y s := rfl
theorem exec_sneReg : exec (.sneReg x y) s = execSneReg x y s := rfl
theorem exec_ldI : exec (.ldI nnn) s = execLdI nnn s := rfl
theorem exec_jpOff : exec (.jpOff x nnn) s = execJpOff x nnn s := rfl
theorem exec_rnd : exec (.rnd x nn) s = execRnd x nn s := rfl
theorem exec_drw : exec (.drw x y n) s = execDrw x y n s := rfl
theorem exec_skp : exec (.skp x) s = execSkp x s := rfl
theorem exec_sknp : exec (.sknp x) s = execSknp x s := rfl
theorem exec_ldVxDt : exec (.ldVxDt x) s = execLdVxDt x s := rfl
theorem exec_ldVxK : exec (.ldVxK x) s = execLdVxK x s := rfl
theorem exec_ldDtVx : exec (.ldDtVx x) s = execLdDtVx x s := rfl
theorem exec_ldStVx : exec (.ldStVx x) s = execLdStVx x s := rfl
theorem exec_addIVx : exec (.addIVx x) s = execAddIVx x s := rfl
theorem exec_ldFVx : exec (.ldFVx x) s = execLdFVx x s := rfl
theorem exec_ldBVx : exec (.ldBVx x) s = execLdBVx x s := rfl
theorem exec_stRegs : exec (.stRegs x) s = execStRegs x s := rfl
theorem exec_ldRegs : exec (.ldRegs x) s = execLdRegs x s := rfl

end

/-! ## The step -/

/-- A step that answers a next state ran one decoded instruction (R90). -/
theorem step_next {s t : State} (h : step s = .next t) :
    ∃ w i, fetch s = .ok w ∧ decode w = .known i ∧ exec i s = .next t := by
  unfold step at h
  split at h
  · cases h
  · next w hw =>
    split at h
    · cases h
    · next i hi => exact ⟨w, i, hw, hi, h⟩

/-- A step that raises did so in its fetch, in its decode, or in the instruction it ran (R193). -/
theorem step_fault {s : State} {f : Fault} (h : step s = .fault f) :
    fetch s = .error f ∨
    (∃ w u, fetch s = .ok w ∧ decode w = .unknown u ∧ f = .unknownOpcode u) ∨
    (∃ w i, fetch s = .ok w ∧ decode w = .known i ∧ exec i s = .fault f) := by
  unfold step at h
  split at h
  · next g hg => cases h; exact .inl hg
  · next w hw =>
    split at h
    · next u hu => cases h; exact .inr (.inl ⟨w, u, hw, hu, rfl⟩)
    · next i hi => exact .inr (.inr ⟨w, i, hw, hi, h⟩)

/-- A step that gives no meaning got that from the instruction it ran. -/
theorem step_refused {s : State} {r : Refusal} (h : step s = .refused r) :
    ∃ w i, fetch s = .ok w ∧ decode w = .known i ∧ exec i s = .refused r := by
  unfold step at h
  split at h
  · cases h
  · next w hw =>
    split at h
    · cases h
    · next i hi => exact ⟨w, i, hw, hi, h⟩

/-- The step as its three stages. -/
theorem step_of_known {s : State} {w : Word} {i : Instr} (hf : fetch s = .ok w) (hd : decode w = .known i) :
    step s = exec i s := by
  simp [step, hf, hd]

theorem step_of_unknown {s : State} {w u : Word} (hf : fetch s = .ok w) (hd : decode w = .unknown u) :
    step s = .fault (.unknownOpcode u) := by
  simp [step, hf, hd, raise]

theorem step_of_fetch_error {s : State} {f : Fault} (hf : fetch s = .error f) : step s = .fault f := by
  simp [step, hf, raise]

/-- A fetch that succeeds reads the two bytes at `EA(PC)` and `EA(PC + 1)` (R89). -/
theorem fetch_ok {s : State} {w : Word} (h : fetch s = .ok w) :
    ∃ a b, effAddr s.cfg s.pc.toNat = .ok a ∧ effAddr s.cfg (s.pc.toNat + 1) = .ok b ∧
      w = wordOfBytes (s.byteAt a) (s.byteAt b) := by
  unfold fetch at h
  split at h
  · cases h
  · next a ha =>
    split at h
    · cases h
    · next b hb => cases h; exact ⟨a, b, ha, hb, rfl⟩

/-- A fetch that fails is out of range, and reports the high byte's address first (R89, R193). -/
theorem fetch_error {s : State} {f : Fault} (h : fetch s = .error f) :
    s.cfg.oob = .fault ∧ ((0xFFF < s.pc.toNat ∧ f = .outOfBoundsAccess s.pc.toNat) ∨
      (s.pc.toNat = 0xFFF ∧ f = .outOfBoundsAccess 0x1000)) := by
  unfold fetch at h
  split at h
  · next g hg =>
    cases h
    obtain ⟨hm, hlt, rfl⟩ := effAddr_error hg
    exact ⟨hm, .inl ⟨hlt, rfl⟩⟩
  · next a ha =>
    split at h
    · next g hg =>
      cases h
      obtain ⟨hm, hlt, rfl⟩ := effAddr_error hg
      refine ⟨hm, ?_⟩
      by_cases hpc : 0xFFF < s.pc.toNat
      · rw [effAddr_fault hm hpc] at ha; cases ha
      · have : s.pc.toNat = 0xFFF := by omega
        exact .inr ⟨this, by rw [this]⟩
    · cases h

/-! ## Meanings that can stop -/

/-- What RET can answer (R102, R189). -/
theorem execRet_cases (s : State) :
    (s.sp = 0 ∧ execRet s = .fault (.stackUnderflow s.pc)) ∨
    (s.sp ≠ 0 ∧ ∃ a, s.stackAt (s.sp.toNat - 1) = some a ∧ execRet s = .next ((s.setSp (s.sp - 1)).setPc a)) ∨
    (16 < s.sp.toNat ∧ execRet s = .refused (.illegalStackPointer s.sp)) := by
  by_cases h0 : s.sp = 0
  · exact .inl ⟨h0, by simp [execRet, h0, raise]⟩
  · have hpos : 0 < s.sp.toNat := by
      rcases Nat.eq_zero_or_pos s.sp.toNat with h | h
      · exact absurd (BitVec.eq_of_toNat_eq (by simpa using h)) h0
      · exact h
    have hsub : (s.sp - 1).toNat = s.sp.toNat - 1 := by
      rw [BitVec.toNat_sub]; have := s.sp.isLt; simp; omega
    by_cases h16 : s.sp.toNat ≤ 16
    · refine .inr (.inl ⟨h0, s.stack[s.sp.toNat - 1], ?_, ?_⟩)
      · simp only [State.stackAt]; rw [Vector.getElem?_eq_getElem (by omega)]
      · have : s.stackAt (s.sp - 1).toNat = some (s.stack[s.sp.toNat - 1]'(by omega)) := by
          simp only [State.stackAt, hsub]; rw [Vector.getElem?_eq_getElem (by omega)]
        unfold execRet; rw [if_neg h0, this]
    · refine .inr (.inr ⟨by omega, ?_⟩)
      have : s.stackAt (s.sp - 1).toNat = none := by
        simp only [State.stackAt, hsub]; rw [Vector.getElem?_eq_none (by omega)]
      unfold execRet; rw [if_neg h0, this]

/-- What CALL can answer (R104, R188). -/
theorem execCall_cases (nnn : Addr) (s : State) :
    (s.sp.toNat = 16 ∧ execCall nnn s = .fault (.stackOverflow s.pc)) ∨
    (s.sp.toNat < 16 ∧ execCall nnn s = .next ((s.push (s.pc + 2)).setPc (target nnn))) ∨
    (16 < s.sp.toNat ∧ execCall nnn s = .refused (.illegalStackPointer s.sp)) := by
  have h16 : s.sp = 16 ↔ s.sp.toNat = 16 :=
    ⟨fun h => by rw [h]; rfl, fun h => BitVec.eq_of_toNat_eq h⟩
  unfold execCall raise
  rcases Nat.lt_trichotomy s.sp.toNat 16 with h | h | h
  · exact .inr (.inl ⟨h, by rw [if_neg (by rw [h16]; omega), if_pos h]⟩)
  · exact .inl ⟨h, by rw [if_pos (h16.2 h)]⟩
  · exact .inr (.inr ⟨h, by rw [if_neg (by rw [h16]; omega), if_neg (by omega)]⟩)

/-- What FX33 can answer (R149, R153). -/
theorem execLdBVx_cases (x : Nibble) (s : State) :
    (∃ f, effAddrs s.cfg s.i.toNat 3 = .error f ∧ execLdBVx x s = .fault f) ∨
    (∃ t, s.writeRun s.i.toNat (decimalDigits (s.reg x)) = .ok t ∧ execLdBVx x s = .next t.advance) := by
  unfold execLdBVx raise
  cases h : s.writeRun s.i.toNat (decimalDigits (s.reg x)) with
  | error f => exact .inl ⟨f, State.writeRun_error h, rfl⟩
  | ok t => exact .inr ⟨t, rfl, rfl⟩

/-- What FX55 can answer (R151, R153). -/
theorem execStRegs_cases (x : Nibble) (s : State) :
    (∃ f, effAddrs s.cfg s.i.toNat (x.toNat + 1) = .error f ∧ execStRegs x s = .fault f) ∨
    (∃ t, s.writeRun s.i.toNat (s.regsUpTo x) = .ok t ∧
      execStRegs x s = .next (t.setI (indexAfterRun s x)).advance) := by
  unfold execStRegs raise
  cases h : s.writeRun s.i.toNat (s.regsUpTo x) with
  | error f => exact .inl ⟨f, by simpa using State.writeRun_error h, rfl⟩
  | ok t => exact .inr ⟨t, rfl, rfl⟩

/-- What FX65 can answer (R152, R153). -/
theorem execLdRegs_cases (x : Nibble) (s : State) :
    (∃ f, effAddrs s.cfg s.i.toNat (x.toNat + 1) = .error f ∧ execLdRegs x s = .fault f) ∨
    (∃ bs, s.readRun s.i.toNat (x.toNat + 1) = .ok bs ∧
      execLdRegs x s = .next ((s.setRegsFrom0 bs).setI (indexAfterRun s x)).advance) := by
  unfold execLdRegs raise
  cases h : s.readRun s.i.toNat (x.toNat + 1) with
  | error f => exact .inl ⟨f, State.readRun_error h, rfl⟩
  | ok bs => exact .inr ⟨bs, rfl, rfl⟩

/-- What DXYN can answer (R163). -/
theorem execDrw_cases (x y n : Nibble) (s : State) :
    (∃ f, effAddrs s.cfg s.i.toNat n.toNat = .error f ∧ execDrw x y n s = .fault f) ∨
    (∃ rows, s.readRun s.i.toNat n.toNat = .ok rows ∧
      execDrw x y n s = .next
        (((s.setDisplay (drawRows (s.reg x).toNat (s.reg y).toNat 0 rows (s.fb, false)).1).setFlag
          (drawRows (s.reg x).toNat (s.reg y).toNat 0 rows (s.fb, false)).2).advance)) := by
  unfold execDrw raise
  cases h : s.readRun s.i.toNat n.toNat with
  | error f => exact .inl ⟨f, State.readRun_error h, rfl⟩
  | ok rows => exact .inr ⟨rows, rfl, rfl⟩

/-- What FX0A does (R173): it waits unchanged, or stores the least pressed key. -/
theorem lowestKey_cases (s : State) :
    (s.lowestKey = none ∧ ∀ k, s.key k = false) ∨
    (∃ k : Nibble, s.lowestKey = some k.toNat ∧ s.key k = true ∧ ∀ j : Nibble, j.toNat < k.toNat → s.key j = false) := by
  cases h : s.lowestKey with
  | none =>
    refine .inl ⟨rfl, fun k => ?_⟩
    have := List.findIdx?_eq_none_iff.1 h (s.key k) (by simp [State.key])
    simpa using this
  | some k =>
    obtain ⟨hk, hp, hlt⟩ := List.findIdx?_eq_some_iff_getElem.1 h
    simp only [Vector.length_toList] at hk
    refine .inr ⟨BitVec.ofNat 4 k, ?_, ?_, ?_⟩
    · simp [Nat.mod_eq_of_lt hk]
    · simpa [State.key, Nat.mod_eq_of_lt hk] using hp
    · intro j hj
      have hj' : j.toNat < k := by simpa [Nat.mod_eq_of_lt hk] using hj
      have := hlt j.toNat hj'
      simpa [State.key] using this

/-- What FX0A can answer (R173). -/
theorem execLdVxK_cases (x : Nibble) (s : State) :
    ((∀ k, s.key k = false) ∧ execLdVxK x s = .next s) ∨
    (∃ k : Nibble, s.key k = true ∧ (∀ j : Nibble, j.toNat < k.toNat → s.key j = false) ∧
      execLdVxK x s = .next (s.setReg x (BitVec.ofNat 8 k.toNat)).advance) := by
  rcases lowestKey_cases s with ⟨h, hk⟩ | ⟨k, h, hk, hj⟩
  · exact .inl ⟨hk, by unfold execLdVxK; rw [h]⟩
  · exact .inr ⟨k, hk, hj, by unfold execLdVxK; rw [h]⟩

/-! ## Placing an instruction (log 8) -/

/-- A word placed at PC is the word the next fetch reads, wherever PC is, as long as the fetch is in range. -/
theorem State.fetch_placeWord {s : State} {as : List Nat} (w : Word) (h : effAddrs s.cfg s.pc.toNat 2 = .ok as) :
    fetch (s.placeWord w) = .ok w := by
  have hs : ∀ a b, effAddr s.cfg a = .ok b → b = a % memSize := by
    intro a b; unfold effAddr; split
    · intro h; cases h; exact (Nat.mod_eq_of_lt (by simp [memSize]; omega)).symm
    · split
      · intro h; cases h; rfl
      · intro h; cases h
  cases ha : effAddr s.cfg s.pc.toNat with
  | error f => simp [effAddrs, ha] at h
  | ok a =>
    cases hb : effAddr s.cfg (s.pc.toNat + 1) with
    | error f => simp [effAddrs, ha, hb] at h
    | ok b =>
      have := hs _ _ ha; have := hs _ _ hb
      have hne : a ≠ b := by simp only [memSize] at *; omega
      unfold fetch
      simp only [State.placeWord, State.setByte_cfg, State.setByte_pc, ha, hb, State.byteAt_setByte]
      subst a b
      rw [if_neg hne, if_pos rfl, if_pos rfl, wordOfBytes_bytes]

/-- From a fetchable state the fetch is in range. -/
theorem State.fetchable_ok (s : State) : ∃ as, effAddrs s.fetchable.cfg s.fetchable.pc.toNat 2 = .ok as := by
  unfold State.fetchable
  cases h : effAddrs s.cfg s.pc.toNat 2 with
  | ok as => exact ⟨as, h⟩
  | error f => exact ⟨[0x200, 0x201], by simp [effAddrs, effAddr]⟩

/-- The interface's placing: the next step fetches the placed word (log 8). -/
theorem State.fetch_withFetchWord (s : State) (nbits w : Nat) : fetch (s.withFetchWord nbits w) = .ok (tableWord nbits w) := by
  obtain ⟨as, h⟩ := s.fetchable_ok
  exact State.fetch_placeWord _ h
/-! ## Host calls -/

/-- The display port reads FB (R206). -/
@[simp] theorem State.pixel_eq (s : State) (px : Fin 64) (py : Fin 32) : s.pixel px py = s.fb.pixel px py := rfl

@[simp] theorem State.call_tick (s : State) : s.call .tick = (s.tick, .done) := rfl

@[simp] theorem State.call_setKey (s : State) (k : Nibble) (p : Bool) : s.call (.setKey k p) = (s.setKey k p, .done) := rfl

/-- What a step call does to the state: the next state of the step, or nothing (R192). -/
theorem State.call_step_cases (s : State) :
    (∃ t, step s = .next t ∧ s.call .step = (t, .ok 1)) ∨
    (∃ f, step s = .fault f ∧ s.call .step = (s, .error f)) ∨
    (∃ r, step s = .refused r ∧ s.call .step = (s, .noMeaning r)) := by
  unfold State.call
  cases h : step s with
  | next t => exact .inl ⟨t, rfl, rfl⟩
  | fault f => exact .inr (.inl ⟨f, rfl, rfl⟩)
  | refused r => exact .inr (.inr ⟨r, rfl, rfl⟩)

@[simp] theorem State.after_nil (s : State) : s.after [] = s := rfl

@[simp] theorem State.after_cons (s : State) (c : HostCall) (cs : List HostCall) :
    s.after (c :: cs) = (s.call c).1.after cs := rfl

end Sys2Proof.Machine
end

