-- ==== Sys2Proof/Tests/Slice0.lean ====
section
/-! SUPPORT. The model's own tests. The expected results are the spec's: its test vectors (95_test_vectors.md, cited as TE,
TX, TJ, TA, TM, TP, TK, TT, TL), and words written out from its encodings. Then, for every statement with hypotheses, states and
operands that meet them all, at the ends of their ranges. -/

namespace Sys2Proof.Tests

open Sys2Proof.Machine

/-! ## Helpers -/

/-- The next state of an answer, if it is one. -/
def nextOf : Result → Option State
  | .next t => some t
  | .fault _ => none
  | .refused _ => none

/-- The error of an answer, if it is one. -/
def faultOf : Result → Option Fault
  | .next _ => none
  | .fault f => some f
  | .refused _ => none

/-- The refusal of an answer, if it is one. -/
def refusalOf : Result → Option Refusal
  | .next _ => none
  | .fault _ => none
  | .refused r => some r

theorem eq_next {o : Result} {t : State} (h : nextOf o = some t) : o = .next t := by
  cases o <;> cases h; rfl

theorem is_next {o : Result} (h : (nextOf o).isSome = true) : ∃ t, o = .next t := by
  cases o with
  | next t => exact ⟨t, rfl⟩
  | fault => cases h
  | refused => cases h

theorem next_has {α : Type} {o : Result} {t : State} {f : State → α} {x : α} (h : o = .next t)
    (hf : (nextOf o).map f = some x) : f t = x := by
  subst h; exact Option.some.inj hf

theorem is_fault {o : Result} {f : Fault} (h : faultOf o = some f) : o = .fault f := by
  cases o <;> cases h; rfl

theorem is_refused {o : Result} {r : Refusal} (h : refusalOf o = some r) : o = .refused r := by
  cases o <;> cases h; rfl

/-- Construction with the test vectors' defaults but for one value each. -/
def legacy : State := State.reset
def modern : State := State.construct { defaultConfig with quirk := .modern }
def faulting : State := State.construct { defaultConfig with oob := .fault }

/-- One step on a word placed where the next step fetches. -/
def run (s : State) (w : Nat) : Option State := nextOf (step (s.withFetchWord 16 w))
def err (s : State) (w : Nat) : Option Fault := faultOf (step (s.withFetchWord 16 w))

/-- How many pixels are lit. -/
def litCount (s : State) : Nat := (s.fb.toList.map fun row => row.toList.count true).sum

/-- A state `n` calls deep, every return address 0x345. -/
def deep (n : Nat) (s : State) : State := { s with sp := BitVec.ofNat 8 n, stack := Vector.replicate 16 0x345 }

/-! ## Well-formedness: what the check refuses (R86, R109) -/

theorem test_wf_refuses_sys_with_the_address_of_cls : (Instr.sys 0x0E0).wf = false := by decide
theorem test_wf_refuses_sys_with_the_address_of_ret : (Instr.sys 0x0EE).wf = false := by decide
theorem test_wf_refuses_jpOff_with_disagreeing_fields : (Instr.jpOff 0x2 0x123).wf = false := by decide
theorem test_wf_accepts_the_neighbours :
    (Instr.sys 0x0E1).wf = true ∧ (Instr.sys 0x0EF).wf = true ∧ (Instr.jpOff 0x1 0x123).wf = true := by decide

/-! ## Decoding: a word for every constructor, bit by bit from R76, R80 (TE1 to TE16) -/

theorem test_decode_fixed_words :
    decode 0b0000000011100000 = .known .cls ∧ decode 0b0000000011101110 = .known .ret := by decide
theorem test_decode_sys : decode 0x0000 = .known (.sys 0x000) ∧ decode 0x00E1 = .known (.sys 0x0E1) ∧
    decode 0x00FE = .known (.sys 0x0FE) ∧ decode 0b0000111111111111 = .known (.sys 0xFFF) := by decide
theorem test_decode_jumps : decode 0b0001000000000000 = .known (.jp 0x000) ∧ decode 0b0010111111111111 = .known (.call 0xFFF) ∧
    decode 0b1011000100100011 = .known (.jpOff 0x1 0x123) := by decide
theorem test_decode_immediate_skips :
    decode 0b0011101000010010 = .known (.seImm 0xA 0x12) ∧ decode 0b0100101100110100 = .known (.sneImm 0xB 0x34) := by decide
theorem test_decode_register_skips :
    decode 0b0101101010110000 = .known (.seReg 0xA 0xB) ∧ decode 0b1001101010110000 = .known (.sneReg 0xA 0xB) := by decide
theorem test_decode_immediate_moves :
    decode 0b0110110001010110 = .known (.ldImm 0xC 0x56) ∧ decode 0b0111110101111000 = .known (.addImm 0xD 0x78) ∧
    decode 0b1010000100100011 = .known (.ldI 0x123) ∧ decode 0b1100000111111111 = .known (.rnd 0x1 0xFF) := by decide
theorem test_decode_family8 :
    decode 0b1000101010110000 = .known (.ldReg 0xA 0xB) ∧ decode 0b1000101010110001 = .known (.orReg 0xA 0xB) ∧
    decode 0b1000101010110010 = .known (.andReg 0xA 0xB) ∧ decode 0b1000101010110011 = .known (.xorReg 0xA 0xB) ∧
    decode 0b1000101010110100 = .known (.addReg 0xA 0xB) ∧ decode 0b1000101010110101 = .known (.subReg 0xA 0xB) ∧
    decode 0b1000101010110110 = .known (.shrReg 0xA 0xB) ∧ decode 0b1000101010110111 = .known (.subnReg 0xA 0xB) ∧
    decode 0b1000101010111110 = .known (.shlReg 0xA 0xB) := by decide
theorem test_decode_draw :
    decode 0b1101000100100011 = .known (.drw 0x1 0x2 0x3) ∧ decode 0xD120 = .known (.drw 0x1 0x2 0x0) := by decide
theorem test_decode_keys :
    decode 0b1110000110011110 = .known (.skp 0x1) ∧ decode 0b1110000110100001 = .known (.sknp 0x1) := by decide
theorem test_decode_familyF :
    decode 0xF107 = .known (.ldVxDt 0x1) ∧ decode 0xF10A = .known (.ldVxK 0x1) ∧ decode 0xF115 = .known (.ldDtVx 0x1) ∧
    decode 0xF118 = .known (.ldStVx 0x1) ∧ decode 0xF11E = .known (.addIVx 0x1) ∧ decode 0xF129 = .known (.ldFVx 0x1) ∧
    decode 0xF133 = .known (.ldBVx 0x1) ∧ decode 0xF155 = .known (.stRegs 0x1) ∧ decode 0xF165 = .known (.ldRegs 0x1) := by decide
/-- TE7, TE9, TE14, TE16. -/
theorem test_decode_unknown_words_5_8_9 : decode 0x5AB1 = .unknown 0x5AB1 ∧ decode 0x5ABF = .unknown 0x5ABF ∧
    decode 0x9AB1 = .unknown 0x9AB1 ∧ decode 0x8AB8 = .unknown 0x8AB8 ∧ decode 0x8ABD = .unknown 0x8ABD ∧
    decode 0x8ABF = .unknown 0x8ABF := by decide
theorem test_decode_unknown_words_E_F : decode 0xE19F = .unknown 0xE19F ∧ decode 0xE1A0 = .unknown 0xE1A0 ∧
    decode 0xF100 = .unknown 0xF100 ∧ decode 0xF108 = .unknown 0xF108 ∧ decode 0xF175 = .unknown 0xF175 ∧
    decode 0xFFFF = .unknown 0xFFFF := by decide
/-- The high byte lies at the lower address (R50). -/
theorem test_decode_bytes : decodeBytes 0x12 0x34 = .known (.jp 0x234) := by decide
theorem test_decode_table_word : decodeTableWord 16 0x6A2F = some (.ldImm 0xA 0x2F) ∧ decodeTableWord 16 0x5121 = none := by decide
theorem test_encode_puts_the_register_of_jpOff_in_its_address : encode (.jpOff 0x1 0x123) = 0xB123 := by decide

/-! ## The step cycle (TX1 to TX11) -/

theorem test_step_from_empty_memory : faultOf (step State.reset) = some (.unknownOpcode 0x0000) := by decide
theorem test_step_unknown_word : err legacy 0x5121 = some (.unknownOpcode 0x5121) := by decide
theorem test_fetch_at_the_top_of_memory :
    (run (legacy.setPc 0xFFE) 0x6312).map (fun t => (t.reg 3, t.pc)) = some (0x12, 0x1000) := by decide
theorem test_fetch_wraps : (nextOf (step (((legacy.setPc 0xFFF).setByte 0xFFF 0x63).setByte 0 0x12))).map
    (fun t => (t.reg 3, t.pc)) = some (0x12, 0x1001) := by decide
theorem test_fetch_faults_on_the_low_byte :
    faultOf (step ((faulting.setPc 0xFFF).setByte 0xFFF 0x63)) = some (.outOfBoundsAccess 0x1000) := by decide
theorem test_fetch_faults_on_the_high_byte : faultOf (step (faulting.setPc 0x1000)) = some (.outOfBoundsAccess 0x1000) := by decide
theorem test_fetch_from_an_odd_address :
    (run (legacy.setPc 0x201) 0x6A55).map (fun t => (t.reg 0xA, t.pc)) = some (0x55, 0x203) := by decide
theorem test_withFetchWord_moves_pc_only_where_the_fetch_would_raise :
    ((faulting.setPc 0x1000).withFetchWord 16 0x6A55).pc = 0x200 ∧ ((legacy.setPc 0x1000).withFetchWord 16 0x6A55).pc = 0x1000 := by
  decide

/-! ## Control flow (TJ1 to TJ17) -/

theorem test_sys_raises : err legacy 0x0123 = some (.unknownOpcode 0x0123) := by decide
theorem test_jp : (run legacy 0x1ABC).map (·.pc) = some 0xABC := by decide
theorem test_call : (run legacy 0x2ABC).map (fun t => (t.stackAt 0, t.sp, t.pc)) = some (some 0x202, 1, 0xABC) := by decide
theorem test_call_overflows : err (deep 16 legacy) 0x2ABC = some (.stackOverflow 0x200) := by decide
theorem test_ret : (run (deep 2 legacy) 0x00EE).map (fun t => (t.stackAt 1, t.sp, t.pc)) = some (some 0x345, 1, 0x345) := by decide
theorem test_ret_underflows : err legacy 0x00EE = some (.stackUnderflow 0x200) := by decide
theorem test_seImm : (run (legacy.setReg 3 0x42) 0x3342).map (·.pc) = some 0x204 ∧
    (run (legacy.setReg 3 0x42) 0x3343).map (·.pc) = some 0x202 := by decide
theorem test_skip_at_the_top_of_memory : (run (legacy.setPc 0xFFE) 0x3300).map (·.pc) = some 0x1002 := by decide
theorem test_sneImm : (run (legacy.setReg 3 0x42) 0x4342).map (·.pc) = some 0x202 ∧
    (run (legacy.setReg 3 0x42) 0x4343).map (·.pc) = some 0x204 := by decide
theorem test_seReg : (run ((legacy.setReg 1 7).setReg 2 7) 0x5120).map (·.pc) = some 0x204 ∧
    (run ((legacy.setReg 1 7).setReg 2 8) 0x5120).map (·.pc) = some 0x202 := by decide
theorem test_sneReg : (run ((legacy.setReg 1 7).setReg 2 7) 0x9120).map (·.pc) = some 0x202 ∧
    (run ((legacy.setReg 1 7).setReg 2 8) 0x9120).map (·.pc) = some 0x204 := by decide
theorem test_jpOff : (run ((legacy.setReg 0 0x10).setReg 2 4) 0xB234).map (·.pc) = some 0x244 ∧
    (run ((modern.setReg 0 0x10).setReg 2 4) 0xB234).map (·.pc) = some 0x238 := by decide
theorem test_jpOff_keeps_16_bits : (run (modern.setReg 0xF 0xFF) 0xBFFF).map (·.pc) = some 0x10FE := by decide

/-! ## Load, arithmetic, logic, shift, random (TA1 to TA43) -/

theorem test_ldImm : (run legacy 0x6AFF).map (fun t => (t.reg 0xA, t.pc)) = some (0xFF, 0x202) := by decide
theorem test_addImm_wraps_without_a_flag :
    (run ((legacy.setReg 0xA 0xFF).setReg 0xF 0x55) 0x7A01).map (fun t => (t.reg 0xA, t.reg 0xF)) = some (0, 0x55) := by decide
theorem test_ldReg : (run ((legacy.setReg 1 1).setReg 2 0xAB) 0x8120).map (fun t => (t.reg 1, t.reg 2)) = some (0xAB, 0xAB) := by decide
theorem test_orReg_keeps_the_flag :
    (run (((legacy.setReg 1 0x0F).setReg 2 0xF0).setReg 0xF 9) 0x8121).map (fun t => (t.reg 1, t.reg 0xF)) = some (0xFF, 9) := by decide
theorem test_andReg : (run ((legacy.setReg 1 0x3C).setReg 2 0x0F) 0x8122).map (·.reg 1) = some 0x0C := by decide
theorem test_xorReg : (run ((legacy.setReg 1 0x3C).setReg 2 0x0F) 0x8123).map (·.reg 1) = some 0x33 := by decide
theorem test_addReg_carries :
    (run ((legacy.setReg 1 0xFF).setReg 2 1) 0x8124).map (fun t => (t.reg 1, t.reg 0xF)) = some (0, 1) := by decide
theorem test_addReg_into_vf_keeps_the_carry : (run ((legacy.setReg 0xF 0xFF).setReg 1 2) 0x8F14).map (·.reg 0xF) = some 1 := by decide
theorem test_subReg_borrows :
    (run ((legacy.setReg 1 0).setReg 2 1) 0x8125).map (fun t => (t.reg 1, t.reg 0xF)) = some (0xFF, 0) := by decide
theorem test_subReg_equal_is_no_borrow :
    (run ((legacy.setReg 1 5).setReg 2 5) 0x8125).map (fun t => (t.reg 1, t.reg 0xF)) = some (0, 1) := by decide
theorem test_subnReg : (run ((legacy.setReg 1 1).setReg 2 0x10) 0x8127).map (fun t => (t.reg 1, t.reg 2, t.reg 0xF)) =
    some (0x0F, 0x10, 1) := by decide
theorem test_subnReg_borrows :
    (run ((legacy.setReg 1 1).setReg 2 0) 0x8127).map (fun t => (t.reg 1, t.reg 0xF)) = some (0xFF, 0) := by decide
theorem test_shrReg_legacy_shifts_vy :
    (run ((legacy.setReg 1 1).setReg 2 0x80) 0x8126).map (fun t => (t.reg 1, t.reg 0xF)) = some (0x40, 0) := by decide
theorem test_shrReg_modern_shifts_vx :
    (run ((modern.setReg 1 1).setReg 2 0x80) 0x8126).map (fun t => (t.reg 1, t.reg 2, t.reg 0xF)) = some (0, 0x80, 1) := by decide
theorem test_shlReg_legacy :
    (run ((legacy.setReg 1 0xC0).setReg 2 0x21) 0x812E).map (fun t => (t.reg 1, t.reg 0xF)) = some (0x42, 0) := by decide
theorem test_shlReg_modern :
    (run ((modern.setReg 1 0xC0).setReg 2 0x21) 0x812E).map (fun t => (t.reg 1, t.reg 0xF)) = some (0x80, 1) := by decide
/-- TA40, with the draw 0xA7 the vector names: the meaning takes the byte as an argument. -/
theorem test_rnd_masks_the_draw :
    (nextOf (execRndWith 0xA7 3 0x0F (legacy.setReg 3 0x99))).map (fun t => (t.reg 3, t.draws)) = some (0x07, 1) := by decide
theorem test_rnd_asks_for_a_byte_even_under_mask_0 :
    (nextOf (execRndWith 0xA7 3 0 (legacy.setReg 3 0x99))).map (fun t => (t.reg 3, t.draws)) = some (0, 1) := by decide

/-! ## Index and memory (TM1 to TM27) -/

theorem test_ldI : (run legacy 0xAFFF).map (·.i) = some 0xFFF := by decide
theorem test_addIVx_keeps_16_bits : (run ((legacy.setI 0xFFF).setReg 3 1) 0xF31E).map (·.i) = some 0x1000 := by decide
theorem test_addIVx_wraps_without_a_flag :
    (run (((legacy.setI 0xFFFF).setReg 3 2).setReg 0xF 7) 0xF31E).map (fun t => (t.i, t.reg 0xF)) = some (1, 7) := by decide
theorem test_ldFVx_takes_the_low_nibble : (run (legacy.setReg 4 0x0F) 0xF429).map (·.i) = some 0x9B ∧
    (run (legacy.setReg 4 0x1A) 0xF429).map (·.i) = some 0x82 := by decide
theorem test_ldBVx_wraps : (run ((legacy.setI 0xFFE).setReg 5 123) 0xF533).map
    (fun t => (t.byteAt 0xFFE, t.byteAt 0xFFF, t.byteAt 0, t.i)) = some (1, 2, 3, 0xFFE) := by decide
theorem test_ldBVx_faults : err ((faulting.setI 0xFFE).setReg 5 123) 0xF533 = some (.outOfBoundsAccess 0x1000) := by decide
/-- TM18. -/
theorem test_stRegs : ∀ q ∈ [(legacy, 0x403), (modern, 0x400)],
    (run ((((q.1.setI 0x400).setReg 0 0x11).setReg 2 0x33).setReg 3 0x44) 0xF255).map
      (fun t => (t.byteAt 0x400, t.byteAt 0x402, t.byteAt 0x403, t.i)) = some (0x11, 0x33, 0, BitVec.ofNat 16 q.2) := by decide
theorem test_stRegs_faults : err (faulting.setI 0xFF8) 0xFF55 = some (.outOfBoundsAccess 0x1000) := by decide
/-- TM23: the font from construction. -/
theorem test_ldRegs : ∀ q ∈ [(legacy, 0x60), (modern, 0x50)], (run (q.1.setI 0x50) 0xFF65).map
    (fun t => (t.reg 0, t.reg 5, t.reg 0xF, t.i)) = some (0xF0, 0x20, 0xF0, BitVec.ofNat 16 q.2) := by decide
/-- TM25, TM24. -/
theorem test_ldRegs_at_the_last_address :
    (run ((faulting.setI 0xFFF).setByte 0xFFF 0x77) 0xF065).map (fun t => (t.reg 0, t.i)) = some (0x77, 0x1000) ∧
    err (faulting.setI 0xFFF) 0xF165 = some (.outOfBoundsAccess 0x1000) := by decide

/-! ## Display (TP1 to TP15) -/

/-- TP15. -/
theorem test_cls : (run ((legacy.setDisplay (legacy.fb.toggle 3 3)).setReg 0xF 5) 0x00E0).map
    (fun t => (litCount t, t.reg 0xF, t.pc)) = some (0, 5, 0x202) := by decide
/-- TP1: glyph 0 lights 14 pixels. -/
theorem test_drw_glyph : (run (legacy.setI 0x50) 0xD015).map
    (fun t => (litCount t, t.pixel 0 0, t.pixel 3 4, t.pixel 1 1, t.reg 0xF)) = some (14, true, true, false, 0) := by decide
/-- TP6 and TP9: both coordinates wrap; a lit pixel is erased and reported. -/
theorem test_drw_wraps_and_collides :
    (run ((((legacy.setI 0x300).setByte 0x300 0x81).setReg 0 0xFF).setReg 1 0xFF) 0xD011).map
      (fun t => (litCount t, t.pixel 63 31, t.pixel 6 31)) = some (2, true, true) ∧
    (run (((legacy.setI 0x300).setByte 0x300 0xC0).setDisplay (legacy.fb.toggle 1 0)) 0xD011).map
      (fun t => (litCount t, t.pixel 0 0, t.pixel 1 0, t.reg 0xF)) = some (1, true, false, 1) := by decide

/-! ## Keypad and timers (TK1 to TK15, TT1 to TT5) -/

theorem test_skp_takes_the_low_nibble :
    (run ((legacy.setReg 3 0x15).setKey 5 true) 0xE39E).map (·.pc) = some 0x204 ∧
    (run ((legacy.setReg 3 0x05).setKey 6 true) 0xE39E).map (·.pc) = some 0x202 := by decide
theorem test_sknp : (run ((legacy.setReg 3 0x05).setKey 5 true) 0xE3A1).map (·.pc) = some 0x202 ∧
    (run ((legacy.setReg 3 0x05).setKey 6 true) 0xE3A1).map (·.pc) = some 0x204 := by decide
theorem test_ldVxK_waits : (run (legacy.setReg 3 0x77) 0xF30A).map (fun t => (t.reg 3, t.pc)) = some (0x77, 0x200) := by decide
theorem test_ldVxK_takes_the_least_key :
    (run ((legacy.setKey 9 true).setKey 4 true) 0xF30A).map (fun t => (t.reg 3, t.pc)) = some (4, 0x202) := by decide
theorem test_ldVxDt : (run (legacy.setDt 0x3B) 0xF207).map (fun t => (t.reg 2, t.dt)) = some (0x3B, 0x3B) := by decide
theorem test_ldDtVx : (run (legacy.setReg 2 0x3C) 0xF215).map (·.dt) = some 0x3C := by decide
theorem test_ldStVx : (run (legacy.setReg 2 2) 0xF218).map (fun t => (t.st, t.tone, t.tick.tick.tone)) = some (2, true, false) := by decide
theorem test_tick : (((legacy.setDt 255).setSt 3).tick.dt, ((legacy.setDt 255).setSt 3).tick.st) = (254, 2) ∧
    (legacy.tick.dt, legacy.tick.st) = (0, 0) := by decide
theorem test_setKey : (legacy.setKey 7 true).key 7 = true ∧ (legacy.setKey 7 true).key 6 = false := by decide

/-! ## Loading and calls (TL2, TL3, TL5, TL6; program P6's first two steps) -/

theorem test_load_program : (nextOf (loadProgram [0xAB, 0xAC, 0xAD] legacy)).map
    (fun t => (t.byteAt 0x200, t.byteAt 0x202, t.byteAt 0x203, t.pc)) = some (0xAB, 0xAD, 0, 0x200) := by decide
theorem test_load_is_big_endian : (nextOf (boot defaultConfig [0x00, 0xE0, 0x12, 0x00])).map
    (fun s => (fetch s).toOption) = some (some 0x00E0) := by decide
theorem test_load_error : faultOf (loadProgram (List.replicate 3585 0xAB) legacy) = some (.loadError 3585) := by
  rw [loadProgram, List.length_replicate]; rfl
theorem test_replies : State.replies State.reset [.tick, .step, .step] =
    [.done, .error (.unknownOpcode 0), .error (.unknownOpcode 0)] := by decide

/-! ## Witnesses: for each statement with hypotheses, inputs that meet all of them together -/

theorem test_reset_inv : State.reset.Inv := by decide

theorem witness_DecodeOfEncode : (Instr.jpOff 0xF 0xFFF).wf = true ∧ (Instr.sys 0x000).wf = true := by decide
theorem witness_EncodeOfDecode : decode 0xB123 = .known (.jpOff 0x1 0x123) := by decide

theorem witness_StepRunsTheDecodedInstruction : ∃ (s : State) (a b : Nat) (i : Instr), effAddr s.cfg s.pc.toNat = .ok a ∧
    effAddr s.cfg (s.pc.toNat + 1) = .ok b ∧ decodeBytes (s.byteAt a) (s.byteAt b) = .known i :=
  ⟨((legacy.setPc 0xFFF).setByte 0xFFF 0x63).setByte 0 0x12, 0xFFF, 0, .ldImm 3 0x12, by rfl, by rfl, by decide⟩

theorem witness_FetchReads : (∃ s : State, s.cfg.oob = .wrap) ∧ (∃ s : State, s.cfg.oob = .fault ∧ s.pc.toNat = 0xFFE) ∧
    (∃ s : State, s.cfg.oob = .fault ∧ s.pc.toNat = 0x1000) ∧ (∃ s : State, s.cfg.oob = .fault ∧ s.pc.toNat = 0xFFF) :=
  ⟨⟨legacy, by decide⟩, ⟨faulting.setPc 0xFFE, by decide⟩, ⟨faulting.setPc 0x1000, by decide⟩, ⟨faulting.setPc 0xFFF, by decide⟩⟩

theorem witness_StepKeepsTheInvariant : ∃ s t : State, s.Inv ∧ step s = .next t :=
  have ⟨t, h⟩ := is_next (o := step ((deep 15 legacy).withFetchWord 16 0x2ABC)) (by decide)
  ⟨_, t, by decide, h⟩

theorem witness_HostCallsKeepTheInvariant : ∃ s : State, defaultConfig.wf ∧ boot defaultConfig [0x22, 0x00] = .next s :=
  have ⟨t, h⟩ := is_next (o := boot defaultConfig [0x22, 0x00]) (by decide)
  ⟨t, by decide, h⟩

/-- Depths 0, 1 and 16. -/
theorem witness_RetPops : (deep 0 legacy).sp.toNat = 0 ∧ (1 ≤ (deep 1 legacy).sp.toNat ∧ (deep 1 legacy).sp.toNat ≤ 16) ∧
    (1 ≤ (deep 16 legacy).sp.toNat ∧ (deep 16 legacy).sp.toNat ≤ 16) := by decide

/-- Depths 16, 15 and 0. -/
theorem witness_CallPushes :
    (deep 16 legacy).sp.toNat = 16 ∧ (deep 15 legacy).sp.toNat < 16 ∧ (deep 0 legacy).sp.toNat < 16 := by decide

theorem witness_StackErrors :
    exec (.call 0x208) (deep 16 legacy) = .fault (.stackOverflow 0x200) ∧ exec .ret (deep 0 legacy) = .fault (.stackUnderflow 0x200) :=
  ⟨is_fault (by decide), is_fault (by decide)⟩

/-- The deepest call that can return. -/
theorem witness_ReturnGoesBack : ∃ (s t u : State), exec (.call 0x208) s = .next t ∧ u.sp = t.sp ∧
    u.stackAt s.sp.toNat = t.stackAt s.sp.toNat ∧ s.sp.toNat = 15 :=
  have ⟨t, h⟩ := is_next (o := exec (.call 0x208) (deep 15 legacy)) (by decide)
  ⟨_, t, t.setPc 0x300, h, rfl, rfl, by decide⟩

/-- A subroutine entered at depth 14, and the same after a nested call and its return, which leaves its stale entry behind. -/
def entered : State := (nextOf (exec (.call 0x208) (deep 14 legacy))).getD legacy
def nested : State := ((nextOf (exec (.call 0x300) entered)).bind fun u => nextOf (exec .ret u)).getD legacy

theorem witness_ReturnGoesBack_nested : nextOf (exec (.call 0x208) (deep 14 legacy)) = some entered ∧ nested.sp = entered.sp ∧
    nested.stackAt 14 = entered.stackAt 14 ∧ nested.stackAt 15 ≠ entered.stackAt 15 := ⟨by rfl, by decide, by decide, by decide⟩

theorem witness_both_quirks : legacy.cfg.quirk = .legacy ∧ modern.cfg.quirk = .modern := by decide

theorem witness_Shifts :
    ((legacy.cfg.quirk = .legacy ∧ (0 : Byte) = legacy.reg 2) ∨ (legacy.cfg.quirk = .modern ∧ (0 : Byte) = legacy.reg 1)) ∧
    ((modern.cfg.quirk = .legacy ∧ (0 : Byte) = modern.reg 2) ∨ (modern.cfg.quirk = .modern ∧ (0 : Byte) = modern.reg 1)) := by decide

/-- In `fault` mode the last run that fits; in `wrap` mode the largest I. The hypotheses on the stored addresses are met too. -/
theorem witness_runs_in_range : RunInRange (faulting.setI 0xFFD) 3 ∧ RunInRange (legacy.setI 0xFFFF) 3 ∧
    RunInRange (faulting.setI 0xFF0) 16 ∧ RunInRange (faulting.setI 0xFFF) 1 ∧ RunInRange (faulting.setI 0xFFFF) 0 := by
  refine ⟨.inr ?_, .inl ?_, .inr ?_, .inr ?_, .inr ?_⟩ <;> decide
theorem witness_stored_addresses : effAddr faulting.cfg 0xFFF = .ok 0xFFF ∧ effAddr legacy.cfg (0xFFFF + 2) = .ok 1 := ⟨by rfl, by rfl⟩

theorem witness_StoredRegistersLoadBack : ∃ (s t u : State), exec (.stRegs 0xF) s = .next t ∧ u.cfg = s.cfg ∧ u.i = s.i ∧
    (∀ a, u.byteAt a = t.byteAt a) ∧ u.reg 0 ≠ s.reg 0 :=
  have ⟨t, h⟩ := is_next (o := exec (.stRegs 0xF) (legacy.setI 0xFF8)) (by decide)
  have hc : t.cfg = (legacy.setI 0xFF8).cfg := next_has (f := State.cfg) h (by decide)
  have hv : (Vector.replicate 16 (1 : Byte))[0] ≠ (legacy.setI 0xFF8).reg 0 := by decide
  ⟨legacy.setI 0xFF8, t, { t with i := 0xFF8, v := Vector.replicate 16 1 }, h, hc, rfl, fun _ => rfl, hv⟩

/-- The first offender at offset 0 and at the last offset of each instruction. -/
theorem witness_FirstOutOfRange : FirstOutOfRange (faulting.setI 0x1000) 1 0 ∧ FirstOutOfRange (faulting.setI 0xFF2) 15 14 ∧
    FirstOutOfRange (faulting.setI 0xFFE) 3 2 ∧ FirstOutOfRange (faulting.setI 0xFF1) 16 15 ∧ FirstOutOfRange (faulting.setI 0xFFFF) 3 0 := by
  refine ⟨?_, ?_, ?_, ?_, ?_⟩ <;> decide

/-- Program P7's store, just before the stored word is fetched: both bytes of the word are new. -/
theorem witness_StoredBytesAreFetched : ∃ (s t : State), exec (.stRegs 1) s = .next t ∧
    effAddr s.cfg (s.i.toNat + (0 : Nibble).toNat) = .ok 0x208 ∧ effAddr s.cfg (s.i.toNat + (1 : Nibble).toNat) = .ok 0x209 ∧
    effAddr t.cfg t.pc.toNat = .ok 0x208 ∧ effAddr t.cfg (t.pc.toNat + 1) = .ok 0x209 :=
  have h : nextOf (exec (.stRegs 1) ((legacy.setPc 0x206).setI 0x208)) =
      some ((nextOf (exec (.stRegs 1) ((legacy.setPc 0x206).setI 0x208))).get (by decide)) := (Option.some_get _).symm
  ⟨_, _, eq_next h, by rfl, by rfl, by rfl, by rfl⟩

/-- `FX33` stores its first and its last digit where the next fetch reads its low and its high byte. -/
theorem witness_StoredDigitsAreFetched :
    (∃ s t : State, exec (.ldBVx 1) s = .next t ∧ effAddr t.cfg t.pc.toNat = .ok 0x208 ∧ effAddr t.cfg (t.pc.toNat + 1) = .ok 0x209 ∧
      effAddr s.cfg (s.i.toNat + 0) = .ok 0x209) ∧
    (∃ s t : State, exec (.ldBVx 1) s = .next t ∧ effAddr t.cfg t.pc.toNat = .ok 0x208 ∧ effAddr t.cfg (t.pc.toNat + 1) = .ok 0x209 ∧
      effAddr s.cfg (s.i.toNat + 2) = .ok 0x208) :=
  have h (i : Word) (p : (nextOf (exec (.ldBVx 1) ((legacy.setPc 0x206).setI i))).isSome) :
      nextOf (exec (.ldBVx 1) ((legacy.setPc 0x206).setI i)) = some ((nextOf (exec (.ldBVx 1) ((legacy.setPc 0x206).setI i))).get p) :=
    (Option.some_get _).symm
  ⟨⟨_, _, eq_next (h 0x209 (by decide)), by rfl, by rfl, by rfl⟩, ⟨_, _, eq_next (h 0x206 (by decide)), by rfl, by rfl, by rfl⟩⟩

/-- A sprite with a 1 bit, drawn at the last column and row of a dark display. -/
def corner : State := ((((legacy.setI 0x300).setByte 0x300 0x80).setReg 0 63).setReg 1 31)

theorem corner_covers : SpriteCovers corner 0 1 1 63 31 := ⟨0, 0, 0x300, by decide, by decide, by rfl, by decide, by decide, by decide⟩

theorem witness_DrawInverts : RunInRange corner 1 ∧ SpriteCovers corner 0 1 1 63 31 ∧ ¬ SpriteCovers corner 0 1 0 63 31 :=
  ⟨.inl (by decide), corner_covers, fun ⟨_, _, _, h, _⟩ => by simp at h⟩

theorem witness_DrawCollision_lit : ∃ s t : State, exec (.drw 0 1 1) s = .next t ∧
    ∃ px py, SpriteCovers s 0 1 1 px py ∧ s.pixel px py = true :=
  have ⟨t, h⟩ := is_next (o := exec (.drw 0 1 1) (corner.setDisplay (corner.fb.toggle 63 31))) (by decide)
  ⟨_, t, h, 63, 31, corner_covers, by decide⟩

theorem reset_allDark : AllDark State.reset := by unfold AllDark; decide

theorem witness_DrawCollision_dark : ∃ s t : State, exec (.drw 0 1 1) s = .next t ∧
    ¬ ∃ px py, SpriteCovers s 0 1 1 px py ∧ s.pixel px py = true :=
  have ⟨t, h⟩ := is_next (o := exec (.drw 0 1 1) corner) (by decide)
  ⟨_, t, h, fun ⟨px, py, _, h⟩ => by rw [show corner.pixel px py = false from reset_allDark px py] at h; cases h⟩

theorem witness_DrawingTwice : ∃ s t u : State, exec (.drw 0 1 1) s = .next t ∧ u.cfg = t.cfg ∧ u.i = t.i ∧
    (∀ k, u.reg k = s.reg k) ∧ (∀ a, u.byteAt a = t.byteAt a) ∧ (∀ px py, u.pixel px py = t.pixel px py) ∧ AllDark s ∧
    ∃ px py, SpriteCovers s 0 1 1 px py :=
  have ⟨t, h⟩ := is_next (o := exec (.drw 0 1 1) corner) (by decide)
  ⟨corner, t, { t with v := corner.v }, h, rfl, rfl, fun _ => rfl, fun _ => rfl, fun _ _ => rfl, reset_allDark, 63, 31, corner_covers⟩

theorem witness_KeySkips : (0xF : Nibble).toNat = ((legacy.setReg 1 0xFF).reg 1).toNat % 16 := by decide

theorem witness_KeyWait : (∀ k, State.reset.key k = false) ∧ ((State.reset.setKey 9 true).setKey 4 true).key 4 = true ∧
    (∀ j : Nibble, j.toNat < (4 : Nibble).toNat → ((State.reset.setKey 9 true).setKey 4 true).key j = false) ∧
    (State.reset.setKey 0xF true).key 0xF = true ∧
    (∀ j : Nibble, j.toNat < (0xF : Nibble).toNat → (State.reset.setKey 0xF true).key j = false) := by decide

theorem witness_Tick : (legacy.setDt 1).dt.toNat > 0 ∧ legacy.dt.toNat = 0 ∧ (legacy.setSt 255).st.toNat > 0 ∧ legacy.st.toNat = 0 := by
  decide

theorem witness_LoadProgram : (List.replicate 3584 (0xAB : Byte)).length ≤ 3584 ∧ ([] : List Byte).length ≤ 3584 :=
  ⟨by rw [List.length_replicate], Nat.zero_le _⟩
theorem witness_LoadError : (List.replicate 3585 (0xAB : Byte)).length > 3584 := by
  rw [List.length_replicate]; exact Nat.lt_succ_self _

/-- A running program that never writes a timer: a jump to self, with ticks between its steps. -/
theorem witness_TimersCountTicks : ∀ bad : Instr → Prop, ¬ bad (.jp 0x200) →
    NeverRuns bad (State.reset.withFetchWord 16 0x1200) [.step, .tick, .step] := by
  intro bad h
  have h1 : nextInstr (State.reset.withFetchWord 16 0x1200) = some (.jp 0x200) := by decide
  have h2 : nextInstr (((State.reset.withFetchWord 16 0x1200).call .step).1.call .tick).1 = some (.jp 0x200) := by decide
  exact ⟨fun _ i hi => by cases h1.symm.trans hi; exact h, fun hc => (by cases hc),
    fun _ i hi => by cases h2.symm.trans hi; exact h, trivial⟩

theorem witness_AnErrorRepeats : step State.reset = .fault (.unknownOpcode 0) := is_fault (by decide)

theorem witness_JumpToSelf : AtJumpToSelf (State.reset.withFetchWord 16 0x1200) := ⟨0x200, by rfl, by decide⟩

theorem witness_OnlyListedInstructionsWriteARegister : ∃ t : State, exec (.addReg 1 2) legacy = .next t ∧
    ¬ MayWriteReg (.addReg 1 2) 3 :=
  have ⟨t, h⟩ := is_next (o := exec (.addReg 1 2) legacy) (by decide)
  ⟨t, h, by simp [MayWriteReg, regF]⟩

theorem witness_OtherInstructionsAdvance : ∃ t : State, exec .cls (legacy.setPc 0xFFFE) = .next t ∧ setsPcItself .cls = false :=
  have ⟨t, h⟩ := is_next (o := exec .cls (legacy.setPc 0xFFFE)) (by decide)
  ⟨t, h, rfl⟩

/-- Each of the four kinds of error an instruction can raise. -/
theorem witness_EachInstructionRaises : exec (.sys 0) legacy = .fault (.unknownOpcode 0) ∧
    exec (.call 0) (deep 16 legacy) = .fault (.stackOverflow 0x200) ∧ exec .ret legacy = .fault (.stackUnderflow 0x200) ∧
    exec (.ldRegs 1) (faulting.setI 0xFFF) = .fault (.outOfBoundsAccess 0x1000) :=
  ⟨is_fault (by decide), is_fault (by decide), is_fault (by decide), is_fault (by decide)⟩

theorem witness_OutOfBounds : step (faulting.setPc 0xFFF) = .fault (.outOfBoundsAccess 0x1000) ∧ legacy.cfg.oob = .wrap ∧
    faulting.cfg.oob = .fault := ⟨is_fault (by decide), by decide, by decide⟩

/-- One input for each of the three answers. -/
theorem witness_QuirkChangesOnly : readsQuirk .ret = false ∧ (∃ t, exec .ret (deep 1 legacy) = .next t) ∧
    exec .ret legacy = .fault (.stackUnderflow 0x200) ∧ exec .ret (deep 17 legacy) = .refused (.illegalStackPointer 17) :=
  ⟨rfl, is_next (by decide), is_fault (by decide), is_refused (by decide)⟩

end Sys2Proof.Tests
end

section
/-! PROOFS. Noninterference of `QUIRK` (00_scope.md R5). One equation carries it: at the same state with another quirk
mode, an instruction that is not one of R5's five gives the same answer with that quirk mode in it. Memory and its
addresses read the configuration too, but only `oob`, `fontBase` and `fontData`. -/

namespace Sys2Proof.Machine

/-! ## Effective addresses read `OOB_MODE` alone (R56) -/

theorem effAddr_congr {c d : Config} (h : c.oob = d.oob) (a : Nat) : effAddr c a = effAddr d a := by
  unfold effAddr
  rw [h]

theorem effAddrs_congr {c d : Config} (h : c.oob = d.oob) : ∀ n base : Nat, effAddrs c base n = effAddrs d base n
  | 0, _ => rfl
  | n + 1, base => by simp only [effAddrs, effAddr_congr h, effAddrs_congr h n]

/-! ## A state with another quirk mode -/

variable (s : State) (q : Quirk)

@[simp] theorem State.withQuirk_i : (s.withQuirk q).i = s.i := rfl
@[simp] theorem State.withQuirk_sp : (s.withQuirk q).sp = s.sp := rfl
@[simp] theorem State.withQuirk_reg (k : Nibble) : (s.withQuirk q).reg k = s.reg k := rfl
@[simp] theorem State.withQuirk_stackAt (j : Nat) : (s.withQuirk q).stackAt j = s.stackAt j := rfl
@[simp] theorem State.withQuirk_lowestKey : (s.withQuirk q).lowestKey = s.lowestKey := rfl

@[simp] theorem State.withQuirk_effAddrs (base n : Nat) :
    effAddrs (s.withQuirk q).cfg base n = effAddrs s.cfg base n :=
  effAddrs_congr (by rfl) n base

@[simp] theorem State.withQuirk_readRun (base n : Nat) : (s.withQuirk q).readRun base n = s.readRun base n := by
  unfold State.readRun
  rw [State.withQuirk_effAddrs]
  rfl

theorem State.withQuirk_setBytes : ∀ (as : List Nat) (vs : List Byte) (s : State),
    (s.withQuirk q).setBytes as vs = (s.setBytes as vs).withQuirk q
  | [], _, _ => rfl
  | _ :: _, [], _ => rfl
  | a :: as, v :: vs, s => State.withQuirk_setBytes as vs (s.setByte a v)

theorem State.withQuirk_writeRun (base : Nat) (vs : List Byte) :
    (s.withQuirk q).writeRun base vs = (s.writeRun base vs).map (·.withQuirk q) := by
  unfold State.writeRun
  rw [State.withQuirk_effAddrs]
  cases effAddrs s.cfg base vs.length with
  | error f => rfl
  | ok as => exact congrArg Except.ok (State.withQuirk_setBytes q as vs s)

/-! ## Answers -/

/-- The same answer with another quirk mode in the next state; an error or a refusal holds no state. -/
def answerWithQuirk : Result → Result
  | .next t => .next (t.withQuirk q)
  | .fault f => .fault f
  | .refused r => .refused r

theorem execRet_withQuirk : execRet (s.withQuirk q) = answerWithQuirk q (execRet s) := by
  unfold execRet
  rw [apply_ite (answerWithQuirk q), State.withQuirk_sp, State.withQuirk_stackAt]
  cases s.stackAt (s.sp - 1).toNat <;> rfl

theorem execCall_withQuirk (nnn : Addr) : execCall nnn (s.withQuirk q) = answerWithQuirk q (execCall nnn s) := by
  unfold execCall
  rw [apply_ite (answerWithQuirk q), apply_ite (answerWithQuirk q)]
  rfl

theorem execDrw_withQuirk (x y n : Nibble) : execDrw x y n (s.withQuirk q) = answerWithQuirk q (execDrw x y n s) := by
  unfold execDrw
  rw [State.withQuirk_i, State.withQuirk_readRun]
  cases s.readRun s.i.toNat n.toNat <;> rfl

theorem execLdVxK_withQuirk (x : Nibble) : execLdVxK x (s.withQuirk q) = answerWithQuirk q (execLdVxK x s) := by
  unfold execLdVxK
  rw [State.withQuirk_lowestKey]
  cases s.lowestKey <;> rfl

theorem execLdBVx_withQuirk (x : Nibble) : execLdBVx x (s.withQuirk q) = answerWithQuirk q (execLdBVx x s) := by
  unfold execLdBVx
  rw [State.withQuirk_i, State.withQuirk_reg, State.withQuirk_writeRun]
  cases s.writeRun s.i.toNat (decimalDigits (s.reg x)) <;> rfl

/-- R5: an instruction that does not read `QUIRK` commutes with a change of it. An arm that only reads and sets fields
other than `cfg` does so by definition; the arms that branch or access memory have their own lemmas. -/
theorem exec_withQuirk {i : Instr} (hi : readsQuirk i = false) :
    exec i (s.withQuirk q) = answerWithQuirk q (exec i s) := by
  cases i with
  | shrReg | shlReg | jpOff | stRegs | ldRegs => cases hi
  | ret => exact execRet_withQuirk s q
  | call nnn => exact execCall_withQuirk s q nnn
  | drw x y n => exact execDrw_withQuirk s q x y n
  | ldVxK x => exact execLdVxK_withQuirk s q x
  | ldBVx x => exact execLdBVx_withQuirk s q x
  | _ => rfl

end Sys2Proof.Machine

namespace Sys2Proof.Proofs

open Sys2Proof.Machine

/-- Settles O56: each clause reads `exec_withQuirk` at one of the three answers. -/
theorem quirkChangesOnlyTheListedInstructions : Obligations.QuirkChangesOnlyTheListedInstructions := by
  intro i q s hi
  refine ⟨fun t h => ?_, fun f h => ?_, fun r h => ?_⟩
  all_goals rw [exec_withQuirk s q hi, h]; rfl

end Sys2Proof.Proofs
end

section
/-! PROOFS. The state's own laws (10_state.md): which parts of it a step can change, and what stays true of it. One inversion
lemma carries them: `effect_of_exec` says which updates an instruction that answers a next state can have made. Every frame and
the invariant are read off its cases; what holds after every host call is then one induction over the calls. -/

namespace Sys2Proof.Machine

/-! ## What an instruction can do to the state -/

/-- The updates by which an instruction goes from `s` to its next state: the parts of the state it writes, and the guards the
frames and the invariant rest on. The values written are left open, because neither depends on them. -/
inductive Effect (s : State) : Instr → State → Prop where
  /-- PC alone: the jumps, the skips, and a key-wait that waits. -/
  | setPc {i : Instr} (a : Word) : setsPcItself i = true → Effect s i (s.setPc a)
  | ret (a : Word) : s.sp ≠ 0 → Effect s .ret ((s.setSp (s.sp - 1)).setPc a)
  | call (nnn : Addr) (a b : Word) : s.sp.toNat < 16 → Effect s (.call nnn) ((s.push a).setPc b)
  /-- One general register. -/
  | setReg {i : Instr} {x : Nibble} (b : Byte) : MayWriteReg i x → Effect s i (s.setReg x b).advance
  /-- One general register, then VF as the flag. -/
  | setRegFlag {i : Instr} {x : Nibble} (p : Byte × Bool) : MayWriteReg i x → MayWriteReg i regF →
      Effect s i (s.setRegFlag x p).advance
  | rnd (x : Nibble) (nn b : Byte) : Effect s (.rnd x nn) (s.setReg x b).countDraw.advance
  | ldI (nnn : Addr) (a : Word) : Effect s (.ldI nnn) (s.setI a).advance
  | addIVx (x : Nibble) (a : Word) : Effect s (.addIVx x) (s.setI a).advance
  | ldFVx (x : Nibble) (a : Word) : Effect s (.ldFVx x) (s.setI a).advance
  | ldDtVx (x : Nibble) (b : Byte) : Effect s (.ldDtVx x) (s.setDt b).advance
  | ldStVx (x : Nibble) (b : Byte) : Effect s (.ldStVx x) (s.setSt b).advance
  | cls (d : Display) : Effect s .cls (s.setDisplay d).advance
  | drw (x y n : Nibble) (d : Display) (c : Bool) : Effect s (.drw x y n) ((s.setDisplay d).setFlag c).advance
  | ldBVx (x : Nibble) (as : List Nat) (vs : List Byte) : (∀ a ∈ as, a < memSize) →
      Effect s (.ldBVx x) (s.setBytes as vs).advance
  | stRegs (x : Nibble) (as : List Nat) (vs : List Byte) (a : Word) : (∀ a ∈ as, a < memSize) →
      Effect s (.stRegs x) ((s.setBytes as vs).setI a).advance
  | ldRegs (x : Nibble) (bs : List Byte) (a : Word) : bs.length = x.toNat + 1 →
      Effect s (.ldRegs x) ((s.setRegsFrom0 bs).setI a).advance

section

variable {s t : State}

theorem effAddrs_lt {cfg : Config} {base n a : Nat} {as : List Nat} (h : effAddrs cfg base n = .ok as) (ha : a ∈ as) :
    a < memSize := by
  obtain ⟨hlen, hget⟩ := (effAddrs_ok_iff n base as).1 h
  obtain ⟨k, hk, rfl⟩ := List.getElem_of_mem ha
  have hka := hget k (hlen ▸ hk)
  rw [List.getElem?_eq_getElem hk, Option.getD_some] at hka
  exact effAddr_lt hka

/-- A run of writes sets its bytes at addresses inside memory (R59). -/
theorem State.setBytes_of_writeRun {base : Nat} {vs : List Byte} (h : s.writeRun base vs = .ok t) :
    ∃ as, (∀ a ∈ as, a < memSize) ∧ t = s.setBytes as vs := by
  unfold State.writeRun at h
  split at h
  · cases h
  · next as has => cases h; exact ⟨as, fun _ => effAddrs_lt has, rfl⟩

theorem effect_of_execRet (h : execRet s = .next t) : Effect s .ret t := by
  obtain ⟨-, he⟩ | ⟨h0, a, -, he⟩ | ⟨-, he⟩ := execRet_cases s <;> cases he.symm.trans h
  exact .ret a h0

theorem effect_of_execCall {nnn : Addr} (h : execCall nnn s = .next t) : Effect s (.call nnn) t := by
  obtain ⟨-, he⟩ | ⟨hlt, he⟩ | ⟨-, he⟩ := execCall_cases nnn s <;> cases he.symm.trans h
  exact .call nnn _ _ hlt

theorem effect_of_execDrw {x y n : Nibble} (h : execDrw x y n s = .next t) : Effect s (.drw x y n) t := by
  obtain ⟨f, -, he⟩ | ⟨rows, -, he⟩ := execDrw_cases x y n s <;> cases he.symm.trans h
  exact .drw x y n _ _

theorem effect_of_execLdVxK {x : Nibble} (h : execLdVxK x s = .next t) : Effect s (.ldVxK x) t := by
  obtain ⟨-, he⟩ | ⟨k, -, -, he⟩ := execLdVxK_cases x s <;> cases he.symm.trans h
  · exact .setPc s.pc rfl
  · exact .setReg _ rfl

theorem effect_of_execLdBVx {x : Nibble} (h : execLdBVx x s = .next t) : Effect s (.ldBVx x) t := by
  obtain ⟨f, -, he⟩ | ⟨u, hu, he⟩ := execLdBVx_cases x s <;> cases he.symm.trans h
  obtain ⟨as, has, rfl⟩ := State.setBytes_of_writeRun hu
  exact .ldBVx x as _ has

theorem effect_of_execStRegs {x : Nibble} (h : execStRegs x s = .next t) : Effect s (.stRegs x) t := by
  obtain ⟨f, -, he⟩ | ⟨u, hu, he⟩ := execStRegs_cases x s <;> cases he.symm.trans h
  obtain ⟨as, has, rfl⟩ := State.setBytes_of_writeRun hu
  exact .stRegs x as _ _ has

theorem effect_of_execLdRegs {x : Nibble} (h : execLdRegs x s = .next t) : Effect s (.ldRegs x) t := by
  obtain ⟨f, -, he⟩ | ⟨bs, hbs, he⟩ := execLdRegs_cases x s <;> cases he.symm.trans h
  exact .ldRegs x bs _ (State.readRun_ok hbs).1

/-- An instruction that answers a next state did one of the listed updates. The arms that can stop or branch have their own
lemmas; of the others the update is the arm itself. -/
theorem effect_of_exec {i : Instr} (h : exec i s = .next t) : Effect s i t := by
  cases i with
  | sys => cases h
  | ret => exact effect_of_execRet h
  | call => exact effect_of_execCall h
  | drw => exact effect_of_execDrw h
  | ldVxK => exact effect_of_execLdVxK h
  | ldBVx => exact effect_of_execLdBVx h
  | stRegs => exact effect_of_execStRegs h
  | ldRegs => exact effect_of_execLdRegs h
  | jp | jpOff | seImm | sneImm | seReg | sneReg | skp | sknp => cases h; exact .setPc _ rfl
  | ldImm | addImm | ldReg | orReg | andReg | xorReg | ldVxDt => cases h; exact .setReg _ rfl
  | addReg | subReg | subnReg | shrReg | shlReg => cases h; exact .setRegFlag _ (.inl rfl) (.inr rfl)
  | rnd => cases h; exact .rnd _ _ _
  | ldI => cases h; exact .ldI _ _
  | addIVx => cases h; exact .addIVx _ _
  | ldFVx => cases h; exact .ldFVx _ _
  | ldDtVx => cases h; exact .ldDtVx _ _
  | ldStVx => cases h; exact .ldStVx _ _
  | cls => cases h; exact .cls _

end

/-! ## What it leaves unchanged -/

namespace Effect

variable {s t : State} {i : Instr} (h : Effect s i t)
include h

theorem cfg_eq : t.cfg = s.cfg := by cases h <;> simp

theorem keys_eq : t.keys = s.keys := by cases h <;> simp

theorem key_eq (k : Nibble) : t.key k = s.key k := by simp only [State.key, h.keys_eq]

theorem reg_eq {k : Nibble} (hk : ¬ MayWriteReg i k) : t.reg k = s.reg k := by
  cases h with
  | setReg b hx =>
    have hkx : k ≠ _ := fun e => hk (e ▸ hx)
    rw [State.advance_reg, State.reg_setReg, if_neg hkx]
  | setRegFlag p hx hf =>
    have hkx : k ≠ _ := fun e => hk (e ▸ hx)
    have hkf : k ≠ regF := fun e => hk (e ▸ hf)
    rw [State.advance_reg, State.reg_setRegFlag, if_neg hkf, if_neg hkx]
  | rnd x nn b =>
    have hkx : k ≠ x := hk
    rw [State.advance_reg, State.countDraw_reg, State.reg_setReg, if_neg hkx]
  | drw x y n d c =>
    have hkf : k ≠ regF := hk
    rw [State.advance_reg, State.reg_setFlag, if_neg hkf, State.setDisplay_reg]
  | ldRegs x bs a hlen =>
    have hxk : x.toNat < k.toNat := Nat.lt_of_not_le hk
    have hnone : bs[k.toNat]? = none := List.getElem?_eq_none (by omega)
    rw [State.advance_reg, State.setI_reg, State.reg_setRegsFrom0, hnone, Option.getD_none]
  | _ => simp

theorem pc_eq (hi : setsPcItself i = false) : t.pc = s.pc + 2 := by
  cases h with
  | setPc a hset => exact absurd hset (by simp [hi])
  | ret | call => cases hi
  | _ => simp

theorem i_eq (hldI : ∀ a, i ≠ .ldI a) (haddI : ∀ x, i ≠ .addIVx x) (hldF : ∀ x, i ≠ .ldFVx x)
    (hst : ∀ x, i ≠ .stRegs x) (hld : ∀ x, i ≠ .ldRegs x) : t.i = s.i := by
  cases h with
  | ldI a => exact absurd rfl (hldI a)
  | addIVx x => exact absurd rfl (haddI x)
  | ldFVx x => exact absurd rfl (hldF x)
  | stRegs x => exact absurd rfl (hst x)
  | ldRegs x => exact absurd rfl (hld x)
  | _ => simp

theorem sp_eq (hcall : ∀ a, i ≠ .call a) (hret : i ≠ .ret) : t.sp = s.sp := by
  cases h with
  | call a => exact absurd rfl (hcall a)
  | ret => exact absurd rfl hret
  | _ => simp

theorem stackAt_eq (hcall : ∀ a, i ≠ .call a) (j : Nat) : t.stackAt j = s.stackAt j := by
  cases h with
  | call a => exact absurd rfl (hcall a)
  | _ => simp

theorem dt_eq (hdt : ∀ x, i ≠ .ldDtVx x) : t.dt = s.dt := by
  cases h with
  | ldDtVx x => exact absurd rfl (hdt x)
  | _ => simp

theorem st_eq (hst : ∀ x, i ≠ .ldStVx x) : t.st = s.st := by
  cases h with
  | ldStVx x => exact absurd rfl (hst x)
  | _ => simp

theorem mem_eq (hldB : ∀ x, i ≠ .ldBVx x) (hst : ∀ x, i ≠ .stRegs x) : t.mem = s.mem := by
  cases h with
  | ldBVx x => exact absurd rfl (hldB x)
  | stRegs x => exact absurd rfl (hst x)
  | _ => simp

theorem byteAt_eq (hldB : ∀ x, i ≠ .ldBVx x) (hst : ∀ x, i ≠ .stRegs x) (a : Nat) : t.byteAt a = s.byteAt a := by
  rw [State.byteAt, State.byteAt, h.cfg_eq, h.mem_eq hldB hst]

theorem fb_eq (hcls : i ≠ .cls) (hdrw : ∀ x y n, i ≠ .drw x y n) : t.fb = s.fb := by
  cases h with
  | cls => exact absurd rfl hcls
  | drw x y n => exact absurd rfl (hdrw x y n)
  | _ => simp

/-! ## The invariant -/

/-- The stack pointer moves by at most one entry, under the guards of R102 and R104. -/
theorem sp_cases : t.sp = s.sp ∨ (s.sp ≠ 0 ∧ t.sp = s.sp - 1) ∨ (s.sp.toNat < 16 ∧ t.sp = s.sp + 1) := by
  cases h with
  | ret a h0 => exact .inr (.inl ⟨h0, rfl⟩)
  | call nnn a b hlt => exact .inr (.inr ⟨hlt, rfl⟩)
  | _ => simp

theorem sp_le (hs : s.sp.toNat ≤ 16) : t.sp.toNat ≤ 16 := by
  obtain heq | ⟨h0, heq⟩ | ⟨hlt, heq⟩ := h.sp_cases <;> rw [heq]
  · exact hs
  · bv_omega
  · bv_omega

theorem mem_wf (hs : Memory.wf s.cfg s.mem) : Memory.wf t.cfg t.mem := by
  rw [h.cfg_eq]
  cases h with
  | ldBVx x as vs has => exact State.setBytes_mem_wf as vs s has hs
  | stRegs x as vs a has => exact State.setBytes_mem_wf as vs s has hs
  | _ => simpa using hs

theorem keeps_inv (hs : s.Inv) : t.Inv := by
  obtain ⟨hcfg, hsp, hmem⟩ := hs
  exact ⟨h.cfg_eq ▸ hcfg, h.sp_le hsp, h.mem_wf hmem⟩

end Effect

/-! ## Steps and host calls -/

/-- What a step that answers a next state did (R90). -/
theorem effect_of_step {s t : State} (h : step s = .next t) : ∃ i, Effect s i t := by
  obtain ⟨-, i, -, -, hi⟩ := step_next h
  exact ⟨i, effect_of_exec hi⟩

theorem step_keeps_inv {s t : State} (hs : s.Inv) (h : step s = .next t) : t.Inv := by
  obtain ⟨i, hi⟩ := effect_of_step h
  exact hi.keeps_inv hs

theorem step_cfg {s t : State} (h : step s = .next t) : t.cfg = s.cfg := by
  obtain ⟨i, hi⟩ := effect_of_step h
  exact hi.cfg_eq

/-- What every step, tick and key press keeps holds after any sequence of host calls (R217); a step that stops leaves the
state it was given (R192). -/
theorem State.after_induction {P : State → Prop} (hstep : ∀ u t, P u → step u = .next t → P t)
    (htick : ∀ u, P u → P u.tick) (hkey : ∀ u k p, P u → P (u.setKey k p)) :
    ∀ (cs : List HostCall) (s : State), P s → P (s.after cs)
  | [], _, hs => hs
  | c :: cs, s, hs => by
    refine State.after_induction hstep htick hkey cs _ ?_
    cases c with
    | tick => exact htick s hs
    | setKey k p => exact hkey s k p hs
    | step =>
      obtain ⟨t, ht, hc⟩ | ⟨f, -, hc⟩ | ⟨r, -, hc⟩ := State.call_step_cases s <;> rw [hc]
      · exact hstep s t hs ht
      · exact hs
      · exact hs

theorem State.after_inv {s : State} (cs : List HostCall) (hs : s.Inv) : (s.after cs).Inv :=
  State.after_induction (P := State.Inv) (fun _ _ => step_keeps_inv) (fun _ hu => hu) (fun _ _ _ hu => hu) cs s hs

theorem State.after_cfg (s : State) (cs : List HostCall) : (s.after cs).cfg = s.cfg :=
  State.after_induction (P := fun u => u.cfg = s.cfg) (fun _ _ hu ht => (step_cfg ht).trans hu) (fun _ hu => hu)
    (fun _ _ _ hu => hu) cs s rfl

/-! ## Construction, loading and boot -/

/-- The font bytes of memory as construction leaves it (R36). -/
theorem Memory.background_font (cfg : Config) (d : Fin 80) :
    Memory.background cfg (cfg.fontBase.val + d.val) = cfg.fontData[d] := by
  simp [Memory.background]

/-- Every other byte of it (R40). -/
theorem Memory.background_outside {cfg : Config} {a : Nat} (h : a < cfg.fontBase.val ∨ cfg.fontBase.val + 80 ≤ a) :
    Memory.background cfg a = 0 := by
  unfold Memory.background
  split
  · next hle =>
    have hout : cfg.fontData[a - cfg.fontBase.val]? = none := Vector.getElem?_eq_none (by omega)
    rw [hout, Option.getD_none]
  · rfl

theorem State.construct_byteAt (cfg : Config) (a : Nat) : (State.construct cfg).byteAt a = Memory.background cfg a := rfl

theorem State.construct_reg (cfg : Config) (k : Nibble) : (State.construct cfg).reg k = 0 := Vector.getElem_replicate _

theorem State.construct_key (cfg : Config) (k : Nibble) : (State.construct cfg).key k = false := Vector.getElem_replicate _

theorem State.construct_stackAt (cfg : Config) {j : Nat} (hj : j < 16) : (State.construct cfg).stackAt j = some 0 := by
  simp [State.stackAt, State.construct, hj]

theorem State.construct_allDark (cfg : Config) : AllDark (State.construct cfg) := Display.pixel_clear

theorem State.construct_inv {cfg : Config} (hcfg : cfg.wf) : (State.construct cfg).Inv :=
  ⟨hcfg, Nat.zero_le 16, Memory.wf_nil⟩

/-- What a load that succeeds does (R228). -/
theorem loadProgram_next {bytes : List Byte} {s t : State} (h : loadProgram bytes s = .next t) :
    bytes.length ≤ progMax ∧ t = s.loadBytes progBase bytes := by
  unfold loadProgram at h
  split at h
  · cases h
  · next hle => cases h; exact ⟨Nat.le_of_not_lt hle, rfl⟩

theorem loadProgram_keeps_inv {bytes : List Byte} {s t : State} (hs : s.Inv) (h : loadProgram bytes s = .next t) : t.Inv := by
  obtain ⟨hle, rfl⟩ := loadProgram_next h
  obtain ⟨hcfg, hsp, hmem⟩ := hs
  have hwf := State.loadBytes_mem_wf bytes progBase s (by simp only [progMax, progBase] at *; omega) hmem
  rw [State.loadBytes_eq]
  exact ⟨hcfg, hsp, hwf⟩

theorem boot_inv {cfg : Config} {bytes : List Byte} {s : State} (hcfg : cfg.wf) (h : boot cfg bytes = .next s) : s.Inv :=
  loadProgram_keeps_inv (State.construct_inv hcfg) h

end Sys2Proof.Machine

namespace Sys2Proof.Proofs

open Sys2Proof.Machine

/-- Settles O10: the invariant is kept by every effect an instruction can have. -/
theorem stepKeepsTheInvariant : Obligations.StepKeepsTheInvariant :=
  fun _ _ => step_keeps_inv

/-- Settles O11: boot leaves a legal state, and every host call keeps it legal. -/
theorem hostCallsKeepTheInvariant : Obligations.HostCallsKeepTheInvariant :=
  fun _ _ _ cs hcfg hboot => State.after_inv cs (boot_inv hcfg hboot)

/-- Settles O48: no effect of an instruction writes the configuration, nor does a tick or a key press. -/
theorem configurationNeverChanges : Obligations.ConfigurationNeverChanges :=
  State.after_cfg

/-- Settles O51: every effect that writes a register is that of an instruction listed for it. -/
theorem onlyListedInstructionsWriteARegister : Obligations.OnlyListedInstructionsWriteARegister :=
  fun _ _ _ _ h hk => (effect_of_exec h).reg_eq hk

/-- Settles O52: each clause is one of the frames of `Effect`. -/
theorem onlyListedInstructionsChangeOtherState : Obligations.OnlyListedInstructionsChangeOtherState := by
  intro i s t h
  have he : Effect s i t := effect_of_exec h
  refine ⟨he.i_eq, he.sp_eq, he.stackAt_eq, he.dt_eq, he.st_eq, he.byteAt_eq, fun hcls hdrw px py => ?_, he.key_eq⟩
  rw [State.pixel_eq, State.pixel_eq, he.fb_eq hcls hdrw]

/-- Settles O53: every effect of an instruction that does not set PC itself ends with `advance`. -/
theorem otherInstructionsAdvanceByTwo : Obligations.OtherInstructionsAdvanceByTwo := by
  intro i s t h hi
  rw [(effect_of_exec h).pc_eq hi, BitVec.toNat_add]
  rfl

/-- Settles O8: the registers, the stack, the keys and the pixels are replicated values, and memory lists nothing, so every
byte reads as the background. -/
theorem constructionLeavesTheStatedValues : Obligations.ConstructionLeavesTheStatedValues := fun cfg =>
  ⟨rfl, State.construct_reg cfg, rfl, rfl, rfl, fun _ => State.construct_stackAt cfg, rfl, rfl, rfl,
    State.construct_allDark cfg, State.construct_key cfg,
    fun d => (State.construct_byteAt cfg _).trans (Memory.background_font cfg d),
    fun a ha => (State.construct_byteAt cfg a).trans (Memory.background_outside ha)⟩

/-- Settles O9: every construction with a legal configuration is a legal state. -/
theorem resetMeetsTheInvariant : Obligations.ResetMeetsTheInvariant :=
  State.construct_inv (by decide : defaultConfig.wf)

end Sys2Proof.Proofs
end

section
/-! PROOFS. Memory as data and as program (20_memory.md): the run of addresses decides whether an access raises and with which
address (R57, R193), and the bytes a store leaves are the bytes the next fetch reads (R65, R236). -/

namespace Sys2Proof.Machine

section

variable {s t : State} {f : Fault}

/-! ## A run with a bad address is raised as such (R57, R153, R193) -/

theorem effAddrs_of_firstOutOfRange {n k : Nat} (h : FirstOutOfRange s n k) :
    effAddrs s.cfg s.i.toNat n = .error (.outOfBoundsAccess (s.i.toNat + k)) := by
  obtain ⟨hm, hk, hbad, hfirst⟩ := h
  exact effAddrs_first_bad hm hk hbad hfirst

theorem State.readRun_of_effAddrs_error {base n : Nat} (h : effAddrs s.cfg base n = .error f) :
    s.readRun base n = .error f := by
  rw [State.readRun, h]

theorem State.writeRun_of_effAddrs_error {base : Nat} {vs : List Byte} (h : effAddrs s.cfg base vs.length = .error f) :
    s.writeRun base vs = .error f := by
  rw [State.writeRun, h]

theorem exec_drw_of_effAddrs_error {x y n : Nibble} (h : effAddrs s.cfg s.i.toNat n.toNat = .error f) :
    exec (.drw x y n) s = .fault f := by
  change execDrw x y n s = .fault f
  rw [execDrw, State.readRun_of_effAddrs_error h]
  rfl

theorem exec_ldBVx_of_effAddrs_error {x : Nibble} (h : effAddrs s.cfg s.i.toNat 3 = .error f) :
    exec (.ldBVx x) s = .fault f := by
  change execLdBVx x s = .fault f
  rw [execLdBVx, State.writeRun_of_effAddrs_error h]
  rfl

theorem exec_stRegs_of_effAddrs_error {x : Nibble} (h : effAddrs s.cfg s.i.toNat (x.toNat + 1) = .error f) :
    exec (.stRegs x) s = .fault f := by
  change execStRegs x s = .fault f
  rw [← State.regsUpTo_length s x] at h
  rw [execStRegs, State.writeRun_of_effAddrs_error h]
  rfl

theorem exec_ldRegs_of_effAddrs_error {x : Nibble} (h : effAddrs s.cfg s.i.toNat (x.toNat + 1) = .error f) :
    exec (.ldRegs x) s = .fault f := by
  change execLdRegs x s = .fault f
  rw [execLdRegs, State.readRun_of_effAddrs_error h]
  rfl

/-! ## What a store leaves in memory (R149, R151) -/

/-- `FX55` leaves `V[k]` at `EA(I + k)`. -/
theorem byteAt_of_exec_stRegs {x k : Nibble} {a : Nat} (h : exec (.stRegs x) s = .next t) (hk : k.toNat ≤ x.toNat)
    (ha : effAddr s.cfg (s.i.toNat + k.toNat) = .ok a) : t.byteAt a = s.reg k := by
  change execStRegs x s = .next t at h
  obtain ⟨f, -, he⟩ | ⟨u, hu, he⟩ := execStRegs_cases x s <;> cases he.symm.trans h
  have hlen : (s.regsUpTo x).length ≤ 4096 := by
    have := x.isLt
    rw [State.regsUpTo_length]
    omega
  obtain ⟨-, hstored, -, -⟩ := State.writeRun_ok hlen hu
  simpa using hstored k.toNat (s.reg k) a (State.regsUpTo_get s hk) ha

/-- Digit `k` of a byte, the hundreds being digit 0. -/
theorem decimalDigits_get (b : Byte) {k : Nat} (hk : k < 3) :
    (decimalDigits b)[k]? = some (BitVec.ofNat 8 (b.toNat / 10 ^ (2 - k) % 10)) := by
  have hb := b.isLt
  match k, hk with
  | 0, _ =>
    have : b.toNat / 100 % 10 = b.toNat / 100 := by omega
    simp [decimalDigits, this]
  | 1, _ => simp [decimalDigits]
  | 2, _ => simp [decimalDigits]

/-- `FX33` leaves digit `k` of `V[x]` at `EA(I + k)`. -/
theorem byteAt_of_exec_ldBVx {x : Nibble} {k a : Nat} (h : exec (.ldBVx x) s = .next t) (hk : k < 3)
    (ha : effAddr s.cfg (s.i.toNat + k) = .ok a) : (t.byteAt a).toNat = (s.reg x).toNat / 10 ^ (2 - k) % 10 := by
  change execLdBVx x s = .next t at h
  obtain ⟨f, -, he⟩ | ⟨u, hu, he⟩ := execLdBVx_cases x s <;> cases he.symm.trans h
  have hlen : (decimalDigits (s.reg x)).length ≤ 4096 := by simp [decimalDigits]
  obtain ⟨-, hstored, -, -⟩ := State.writeRun_ok hlen hu
  rw [State.advance_byteAt, hstored k _ a (decimalDigits_get (s.reg x) hk) ha, BitVec.toNat_ofNat]
  omega

/-! ## What a fetch reads (R50, R89) -/

/-- A fetch in range gives the byte at `EA(PC)` as the high byte and the byte at `EA(PC + 1)` as the low byte. -/
theorem fetch_of_effAddr {a b : Nat} (ha : effAddr s.cfg s.pc.toNat = .ok a) (hb : effAddr s.cfg (s.pc.toNat + 1) = .ok b) :
    ∃ w, fetch s = .ok w ∧ w.toNat / 256 = (s.byteAt a).toNat ∧ w.toNat % 256 = (s.byteAt b).toNat := by
  have hlo := (s.byteAt b).isLt
  refine ⟨wordOfBytes (s.byteAt a) (s.byteAt b), by simp [fetch, ha, hb], ?_, ?_⟩ <;> rw [wordOfBytes_toNat] <;> omega

end

end Sys2Proof.Machine

namespace Sys2Proof.Proofs

open Sys2Proof.Machine

/-- Settles O34: each of the four checks its whole run of addresses first, and the run raises its first bad address. -/
theorem firstOutOfRangeAddressIsRaised : Obligations.FirstOutOfRangeAddressIsRaised := fun _ _ _ _ _ =>
  ⟨fun h => exec_drw_of_effAddrs_error (effAddrs_of_firstOutOfRange h),
    fun h => exec_ldBVx_of_effAddrs_error (effAddrs_of_firstOutOfRange h),
    fun h => exec_stRegs_of_effAddrs_error (effAddrs_of_firstOutOfRange h),
    fun h => exec_ldRegs_of_effAddrs_error (effAddrs_of_firstOutOfRange h)⟩

/-- Settles O35: the fetch reads the bytes of `t`, and those are the bytes the store left. -/
theorem storedBytesAreFetchedAtOnce : Obligations.StoredBytesAreFetchedAtOnce := by
  intro x s t a b ha hb
  obtain ⟨w, hw, hhi, hlo⟩ := fetch_of_effAddr ha hb
  refine ⟨fun h => ⟨w, hw, fun k hk => ⟨fun hka => ?_, fun hkb => ?_⟩⟩, fun h => ⟨w, hw, fun k hk => ⟨fun hka => ?_, fun hkb => ?_⟩⟩⟩
  · rw [hhi, byteAt_of_exec_stRegs h hk hka]
  · rw [hlo, byteAt_of_exec_stRegs h hk hkb]
  · rw [hhi, byteAt_of_exec_ldBVx h hk hka]
  · rw [hlo, byteAt_of_exec_ldBVx h hk hkb]

end Sys2Proof.Proofs
end

section
/-! PROOFS. The decoder and the encoder are inverse to each other (30_encoding.md R81, R83, R84). Three facts carry it: the
decoder reads back every well-formed encoding; a word of the table of R84 decodes to `Unknown`; and every other word is the
encoding of a well-formed instruction. -/

namespace Sys2Proof

/-! ## The decoder reads an encoding back (R83) -/

theorem Instr.wf_sys {nnn : Addr} : (Instr.sys nnn).wf = true ↔ nnn ≠ 0x0E0 ∧ nnn ≠ 0x0EE := by
  simp only [Instr.wf, sysAddrOk, Bool.and_eq_true, bne_iff_ne]

theorem Instr.wf_jpOff {x : Nibble} {nnn : Addr} : (Instr.jpOff x nnn).wf = true ↔ x = nnn.extractLsb' 8 4 := by
  simp only [Instr.wf, jpOffFieldsAgree, beq_iff_eq]

theorem decode_encode_sys {nnn : Addr} (h : (Instr.sys nnn).wf = true) : decode (encode (.sys nnn)) = .known (.sys nnn) := by
  obtain ⟨hcls, hret⟩ := Instr.wf_sys.1 h
  rw [encode, decode_family0 (fieldF_packNNN _ _), decodeFamily0, fieldNNN_packNNN, if_neg hcls, if_neg hret]

theorem decode_encode_jpOff {x : Nibble} {nnn : Addr} (h : (Instr.jpOff x nnn).wf = true) :
    decode (encode (.jpOff x nnn)) = .known (.jpOff x nnn) := by
  rw [encode, decode_familyB (fieldF_packNNN _ _), fieldX_packNNN, fieldNNN_packNNN, ← Instr.wf_jpOff.1 h]

/-- R83, family by family of the encoded word: the family nibble picks the decoder's arm, and the packed fields are read
back. -/
theorem decode_encode {i : Instr} (h : i.wf = true) : decode (encode i) = .known i := by
  cases i with
  | cls | ret => rfl
  | sys nnn => exact decode_encode_sys h
  | jp nnn => simp [encode, decode_family1]
  | call nnn => simp [encode, decode_family2]
  | seImm x nn => simp [encode, decode_family3]
  | sneImm x nn => simp [encode, decode_family4]
  | seReg x y => simp [encode, decode_family5]
  | ldImm x nn => simp [encode, decode_family6]
  | addImm x nn => simp [encode, decode_family7]
  | ldReg x y | orReg x y | andReg x y | xorReg x y | addReg x y | subReg x y | shrReg x y | subnReg x y | shlReg x y =>
    simp [encode, decode_family8, decodeFamily8]
  | sneReg x y => simp [encode, decode_family9]
  | ldI nnn => simp [encode, decode_familyA]
  | jpOff x nnn => exact decode_encode_jpOff h
  | rnd x nn => simp [encode, decode_familyC]
  | drw x y n => simp [encode, decode_familyD]
  | skp x | sknp x => simp [encode, decode_familyE, decodeFamilyE]
  | ldVxDt x | ldVxK x | ldDtVx x | ldStVx x | addIVx x | ldFVx x | ldBVx x | stRegs x | ldRegs x =>
    simp [encode, decode_familyF, decodeFamilyF]

/-! ## A word of the table of R84 decodes to `Unknown` -/

/-- The table of R84: the family, and what its sub-opcode is not. -/
def UnknownPattern (w : Word) : Prop :=
  (fieldF w = 0x5 ∧ fieldN w ≠ 0) ∨
  (fieldF w = 0x8 ∧ fieldN w ∈ ([0x8, 0x9, 0xA, 0xB, 0xC, 0xD, 0xF] : List Nibble)) ∨
  (fieldF w = 0x9 ∧ fieldN w ≠ 0) ∨
  (fieldF w = 0xE ∧ fieldNN w ∉ ([0x9E, 0xA1] : List Byte)) ∨
  (fieldF w = 0xF ∧ fieldNN w ∉ ([0x07, 0x0A, 0x15, 0x18, 0x1E, 0x29, 0x33, 0x55, 0x65] : List Byte))

section

variable {w : Word}

theorem decodeFamily8_unknown (h : fieldN w ∈ ([0x8, 0x9, 0xA, 0xB, 0xC, 0xD, 0xF] : List Nibble)) :
    decodeFamily8 w = .unknown w := by
  simp only [List.mem_cons, List.not_mem_nil, or_false] at h
  rcases h with h | h | h | h | h | h | h <;> simp [decodeFamily8, h]

theorem decodeFamilyE_unknown (h : fieldNN w ∉ ([0x9E, 0xA1] : List Byte)) : decodeFamilyE w = .unknown w := by
  simp only [List.mem_cons, List.not_mem_nil, or_false, not_or] at h
  simp only [decodeFamilyE, h, if_false]

theorem decodeFamilyF_unknown (h : fieldNN w ∉ ([0x07, 0x0A, 0x15, 0x18, 0x1E, 0x29, 0x33, 0x55, 0x65] : List Byte)) :
    decodeFamilyF w = .unknown w := by
  simp only [List.mem_cons, List.not_mem_nil, or_false, not_or] at h
  simp only [decodeFamilyF, h, if_false]

theorem decode_of_unknownPattern (h : UnknownPattern w) : decode w = .unknown w := by
  rcases h with ⟨hf, hn⟩ | ⟨hf, hn⟩ | ⟨hf, hn⟩ | ⟨hf, hnn⟩ | ⟨hf, hnn⟩
  · rw [decode_family5 hf, if_neg hn]
  · rw [decode_family8 hf, decodeFamily8_unknown hn]
  · rw [decode_family9 hf, if_neg hn]
  · rw [decode_familyE hf, decodeFamilyE_unknown hnn]
  · rw [decode_familyF hf, decodeFamilyF_unknown hnn]

end

/-! ## Every other word is an encoding (R81) -/

/-- The word is the encoding of a well-formed instruction. -/
def IsEncoding (w : Word) : Prop := ∃ i : Instr, i.wf = true ∧ encode i = w

theorem isEncoding_family0 (nnn : Addr) : IsEncoding (packNNN 0x0 nnn) := by
  by_cases hcls : nnn = 0x0E0
  · exact ⟨.cls, rfl, by rw [hcls]; rfl⟩
  by_cases hret : nnn = 0x0EE
  · exact ⟨.ret, rfl, by rw [hret]; rfl⟩
  exact ⟨.sys nnn, Instr.wf_sys.2 ⟨hcls, hret⟩, rfl⟩

theorem isEncoding_family8 (x y : Nibble) {n : Nibble} (h : n ∉ ([0x8, 0x9, 0xA, 0xB, 0xC, 0xD, 0xF] : List Nibble)) :
    IsEncoding (packXYN 0x8 x y n) := by
  have hn : ∀ n : Nibble, n ∉ ([0x8, 0x9, 0xA, 0xB, 0xC, 0xD, 0xF] : List Nibble) →
      n = 0x0 ∨ n = 0x1 ∨ n = 0x2 ∨ n = 0x3 ∨ n = 0x4 ∨ n = 0x5 ∨ n = 0x6 ∨ n = 0x7 ∨ n = 0xE := by decide
  rcases hn n h with rfl | rfl | rfl | rfl | rfl | rfl | rfl | rfl | rfl
  · exact ⟨.ldReg x y, rfl, rfl⟩
  · exact ⟨.orReg x y, rfl, rfl⟩
  · exact ⟨.andReg x y, rfl, rfl⟩
  · exact ⟨.xorReg x y, rfl, rfl⟩
  · exact ⟨.addReg x y, rfl, rfl⟩
  · exact ⟨.subReg x y, rfl, rfl⟩
  · exact ⟨.shrReg x y, rfl, rfl⟩
  · exact ⟨.subnReg x y, rfl, rfl⟩
  · exact ⟨.shlReg x y, rfl, rfl⟩

theorem isEncoding_familyE (x : Nibble) {nn : Byte} (h : nn ∈ ([0x9E, 0xA1] : List Byte)) :
    IsEncoding (packXNN 0xE x nn) := by
  simp only [List.mem_cons, List.not_mem_nil, or_false] at h
  rcases h with rfl | rfl
  · exact ⟨.skp x, rfl, rfl⟩
  · exact ⟨.sknp x, rfl, rfl⟩

theorem isEncoding_familyF (x : Nibble) {nn : Byte}
    (h : nn ∈ ([0x07, 0x0A, 0x15, 0x18, 0x1E, 0x29, 0x33, 0x55, 0x65] : List Byte)) : IsEncoding (packXNN 0xF x nn) := by
  simp only [List.mem_cons, List.not_mem_nil, or_false] at h
  rcases h with rfl | rfl | rfl | rfl | rfl | rfl | rfl | rfl | rfl
  · exact ⟨.ldVxDt x, rfl, rfl⟩
  · exact ⟨.ldVxK x, rfl, rfl⟩
  · exact ⟨.ldDtVx x, rfl, rfl⟩
  · exact ⟨.ldStVx x, rfl, rfl⟩
  · exact ⟨.addIVx x, rfl, rfl⟩
  · exact ⟨.ldFVx x, rfl, rfl⟩
  · exact ⟨.ldBVx x, rfl, rfl⟩
  · exact ⟨.stRegs x, rfl, rfl⟩
  · exact ⟨.ldRegs x, rfl, rfl⟩

/-- A word outside the table of R84 is an encoding: the instruction is found by the family nibble and, in the families told
apart by a sub-opcode, by that. -/
theorem isEncoding_of_not_unknownPattern {w : Word} (h : ¬ UnknownPattern w) : IsEncoding w := by
  have hNNN := packNNN_fields w
  have hXNN := packXNN_fields w
  have hXYN := packXYN_fields w
  simp only [UnknownPattern, not_or, not_and, not_not] at h
  obtain ⟨h5, h8, h9, hE, hF⟩ := h
  rcases nibble_cases (fieldF w) with hf | hf | hf | hf | hf | hf | hf | hf | hf | hf | hf | hf | hf | hf | hf | hf
  all_goals rw [hf] at hNNN hXNN hXYN
  · exact hNNN ▸ isEncoding_family0 (fieldNNN w)
  · exact ⟨.jp (fieldNNN w), rfl, hNNN⟩
  · exact ⟨.call (fieldNNN w), rfl, hNNN⟩
  · exact ⟨.seImm (fieldX w) (fieldNN w), rfl, hXNN⟩
  · exact ⟨.sneImm (fieldX w) (fieldNN w), rfl, hXNN⟩
  · rw [h5 hf] at hXYN
    exact ⟨.seReg (fieldX w) (fieldY w), rfl, hXYN⟩
  · exact ⟨.ldImm (fieldX w) (fieldNN w), rfl, hXNN⟩
  · exact ⟨.addImm (fieldX w) (fieldNN w), rfl, hXNN⟩
  · exact hXYN ▸ isEncoding_family8 (fieldX w) (fieldY w) (h8 hf)
  · rw [h9 hf] at hXYN
    exact ⟨.sneReg (fieldX w) (fieldY w), rfl, hXYN⟩
  · exact ⟨.ldI (fieldNNN w), rfl, hNNN⟩
  · exact ⟨.jpOff (fieldX w) (fieldNNN w), Instr.wf_jpOff.2 (by rw [← fieldX_packNNN, hNNN]), hNNN⟩
  · exact ⟨.rnd (fieldX w) (fieldNN w), rfl, hXNN⟩
  · exact ⟨.drw (fieldX w) (fieldY w) (fieldN w), rfl, hXYN⟩
  · exact hXNN ▸ isEncoding_familyE (fieldX w) (hE hf)
  · exact hXNN ▸ isEncoding_familyF (fieldX w) (hF hf)

/-! ## The decoder's two answers -/

theorem unknownPattern_of_decode_unknown {w u : Word} (h : decode w = .unknown u) : UnknownPattern w := by
  by_contra hw
  obtain ⟨i, hi, rfl⟩ := isEncoding_of_not_unknownPattern hw
  cases (decode_encode hi).symm.trans h

theorem decode_unknown_iff {w u : Word} : decode w = .unknown u ↔ u = w ∧ UnknownPattern w := by
  constructor
  · intro h
    have hw := unknownPattern_of_decode_unknown h
    exact ⟨Decoded.unknown.inj (h.symm.trans (decode_of_unknownPattern hw)), hw⟩
  · rintro ⟨rfl, hw⟩
    exact decode_of_unknownPattern hw

theorem encode_of_decode {w : Word} {i : Instr} (h : decode w = .known i) : i.wf = true ∧ encode i = w := by
  have hw : ¬ UnknownPattern w := fun hw => by cases (decode_of_unknownPattern hw).symm.trans h
  obtain ⟨j, hj, rfl⟩ := isEncoding_of_not_unknownPattern hw
  obtain rfl : j = i := Decoded.known.inj ((decode_encode hj).symm.trans h)
  exact ⟨hj, rfl⟩

end Sys2Proof

namespace Sys2Proof.Proofs

/-- Settles O1: each family's decoder reads its encodings back. -/
theorem decodeOfEncodeIsTheInstruction : Obligations.DecodeOfEncodeIsTheInstruction :=
  fun _ => decode_encode

/-- Settles O2: a word that decodes to an operation is outside the table of R84, so it is an encoding, and the decoder reads
back the instruction it encodes. -/
theorem encodeOfDecodeIsTheWord : Obligations.EncodeOfDecodeIsTheWord :=
  fun _ _ => encode_of_decode

/-- Settles O3: the words of the table decode to `Unknown`, and every other word is an encoding, which does not. -/
theorem unknownWordsAreTheListedOnes : Obligations.UnknownWordsAreTheListedOnes :=
  fun _ _ => decode_unknown_iff

/-- Settles O4, by running the decoder on the words. -/
theorem sampleWordsDecodeAsTheSpecSays : Obligations.SampleWordsDecodeAsTheSpecSays := by
  unfold Obligations.SampleWordsDecodeAsTheSpecSays
  decide

end Sys2Proof.Proofs
end

section
/-! PROOFS. The step cycle (30_encoding.md R89, R90): what a fetch reads and raises, and that only a stack pointer above 16
leaves a step without a meaning (10_state.md R28, R82). -/

namespace Sys2Proof.Machine

section

variable {s : State}

/-! ## What a fetch reads and raises (R89) -/

theorem fetch_eq_wordOfBytes {a b : Nat} (ha : effAddr s.cfg s.pc.toNat = .ok a)
    (hb : effAddr s.cfg (s.pc.toNat + 1) = .ok b) : fetch s = .ok (wordOfBytes (s.byteAt a) (s.byteAt b)) := by
  simp only [fetch, ha, hb]

/-- The number a fetched word stands for: the byte at the lower address is the high byte (R50). -/
theorem fetch_toNat {a b : Nat} (ha : effAddr s.cfg s.pc.toNat = .ok a) (hb : effAddr s.cfg (s.pc.toNat + 1) = .ok b) :
    ∃ w, fetch s = .ok w ∧ w.toNat = (s.byteAt a).toNat * 256 + (s.byteAt b).toNat :=
  ⟨_, fetch_eq_wordOfBytes ha hb, wordOfBytes_toNat _ _⟩

theorem fetch_error_of_high {f : Fault} (ha : effAddr s.cfg s.pc.toNat = .error f) : fetch s = .error f := by
  simp only [fetch, ha]

theorem fetch_error_of_low {a : Nat} {f : Fault} (ha : effAddr s.cfg s.pc.toNat = .ok a)
    (hb : effAddr s.cfg (s.pc.toNat + 1) = .error f) : fetch s = .error f := by
  simp only [fetch, ha, hb]

/-! ## What has no meaning (R28) -/

/-- An instruction is refused only with SP above 16. RET and CALL are the two that look at SP; the accesses to memory
raise or complete; every other instruction completes or raises by definition. -/
theorem sp_of_exec_refused {i : Instr} {r : Refusal} (h : exec i s = .refused r) : 16 < s.sp.toNat := by
  cases i with
  | ret =>
    obtain ⟨-, he⟩ | ⟨-, a, -, he⟩ | ⟨hsp, -⟩ := execRet_cases s
    · cases he.symm.trans h
    · cases he.symm.trans h
    · exact hsp
  | call nnn =>
    obtain ⟨-, he⟩ | ⟨-, he⟩ | ⟨hsp, -⟩ := execCall_cases nnn s
    · cases he.symm.trans h
    · cases he.symm.trans h
    · exact hsp
  | drw x y n => obtain ⟨f, -, he⟩ | ⟨rows, -, he⟩ := execDrw_cases x y n s <;> cases he.symm.trans h
  | ldVxK x => obtain ⟨-, he⟩ | ⟨k, -, -, he⟩ := execLdVxK_cases x s <;> cases he.symm.trans h
  | ldBVx x => obtain ⟨f, -, he⟩ | ⟨t, -, he⟩ := execLdBVx_cases x s <;> cases he.symm.trans h
  | stRegs x => obtain ⟨f, -, he⟩ | ⟨t, -, he⟩ := execStRegs_cases x s <;> cases he.symm.trans h
  | ldRegs x => obtain ⟨f, -, he⟩ | ⟨bs, -, he⟩ := execLdRegs_cases x s <;> cases he.symm.trans h
  | _ => cases h

end

end Sys2Proof.Machine

namespace Sys2Proof.Proofs

open Sys2Proof.Machine

/-- Settles O5: the fetch gives the word of the two bytes, and the step runs what it decodes to. -/
theorem stepRunsTheDecodedInstruction : Obligations.StepRunsTheDecodedInstruction :=
  fun _ _ _ _ ha hb hd => step_of_known (fetch_eq_wordOfBytes ha hb) hd

/-- Settles O6: each clause is the fetch at the effective addresses of its mode. -/
theorem fetchReadsTheWordAtPcOrRaises : Obligations.FetchReadsTheWordAtPcOrRaises := by
  intro s
  refine ⟨fun hm => ?_, fun _ hpc => ?_, fun hm hpc => ?_, fun hm hpc => ?_⟩
  · exact fetch_toNat (effAddr_wrap hm _) (effAddr_wrap hm _)
  · exact fetch_toNat (effAddr_of_le (by omega)) (effAddr_of_le (by omega))
  · exact step_of_fetch_error (fetch_error_of_high (effAddr_fault hm hpc))
  · have hlow : effAddr s.cfg (s.pc.toNat + 1) = .error (.outOfBoundsAccess 0x1000) := by
      rw [hpc]
      exact effAddr_fault hm (by decide)
    exact step_of_fetch_error (fetch_error_of_low (effAddr_of_le hpc.le) hlow)

/-- Settles O12: a refused step ran an instruction with SP above 16, which the invariant excludes. -/
theorem stepFromLegalStateNeverRefuses : Obligations.StepFromLegalStateNeverRefuses := by
  intro s r hs h
  obtain ⟨-, hsp, -⟩ := hs
  obtain ⟨w, i, -, -, hi⟩ := step_refused h
  exact absurd (sp_of_exec_refused hi) (by omega)

end Sys2Proof.Proofs
end

section
/-! PROOFS. The control-flow instructions (40_control_flow.md). All but SYS end with `setPc`; RET and CALL pop and push before
it; so the frames are composed from those of `setPc`, `setSp` and `push`, and the values are read off the laws of the state. -/

namespace Sys2Proof.Machine

/-! ## Frames of the updates of PC and the stack -/

section

variable {s t u : State} {parts : List Part}

theorem UnchangedBut.refl (parts : List Part) (s : State) : UnchangedBut parts s s where
  cfg := rfl
  keys _ := rfl
  regs _ _ := rfl
  index _ := rfl
  pc _ := rfl
  stack _ := ⟨rfl, fun _ => rfl⟩
  delay _ := rfl
  sound _ := rfl
  mem _ _ := rfl
  display _ _ _ := rfl
  draws _ := rfl

theorem UnchangedBut.trans (h : UnchangedBut parts s t) (h' : UnchangedBut parts t u) : UnchangedBut parts s u where
  cfg := h'.cfg.trans h.cfg
  keys k := (h'.keys k).trans (h.keys k)
  regs hp k := (h'.regs hp k).trans (h.regs hp k)
  index hp := (h'.index hp).trans (h.index hp)
  pc hp := (h'.pc hp).trans (h.pc hp)
  stack hp := ⟨(h'.stack hp).1.trans (h.stack hp).1, fun j => ((h'.stack hp).2 j).trans ((h.stack hp).2 j)⟩
  delay hp := (h'.delay hp).trans (h.delay hp)
  sound hp := (h'.sound hp).trans (h.sound hp)
  mem hp a := (h'.mem hp a).trans (h.mem hp a)
  display hp px py := (h'.display hp px py).trans (h.display hp px py)
  draws hp := (h'.draws hp).trans (h.draws hp)

theorem unchangedBut_setPc (hp : .pc ∈ parts) (s : State) (a : Word) : UnchangedBut parts s (s.setPc a) :=
  { UnchangedBut.refl parts s with pc := fun hn => absurd hp hn }

theorem unchangedBut_setSp (hp : .stack ∈ parts) (s : State) (b : Byte) : UnchangedBut parts s (s.setSp b) :=
  { UnchangedBut.refl parts s with stack := fun hn => absurd hp hn }

theorem unchangedBut_push (hp : .stack ∈ parts) (s : State) (a : Word) : UnchangedBut parts s (s.push a) :=
  { UnchangedBut.refl parts s with stack := fun hn => absurd hp hn }

end

/-! ## Targets and skips (R100, R109, R110) -/

theorem target_toNat (nnn : Addr) : (target nnn).toNat = nnn.toNat :=
  BitVec.toNat_setWidth_of_le (by decide)

/-- A 12-bit base and an 8-bit offset never reach 65536. -/
theorem target_add_toNat (nnn : Addr) (b : Byte) : (target nnn + b.setWidth 16).toNat = nnn.toNat + b.toNat := by
  have hb : (b.setWidth 16).toNat = b.toNat := BitVec.toNat_setWidth_of_le (by decide)
  rw [BitVec.toNat_add, target_toNat, hb]
  omega

theorem jumpOffset_legacy {s : State} {x : Nibble} (h : s.cfg.quirk = .legacy) : jumpOffset s x = s.reg 0 := by
  simp only [jumpOffset, h]

theorem jumpOffset_modern {s : State} {x : Nibble} (h : s.cfg.quirk = .modern) : jumpOffset s x = s.reg x := by
  simp only [jumpOffset, h]

theorem State.skipIf_pc_toNat (s : State) (c : Bool) :
    (s.skipIf c).pc.toNat = (s.pc.toNat + if c then 4 else 2) % 65536 := by
  cases c <;> exact BitVec.toNat_add _ _

/-- Where a skip on equality goes. -/
theorem State.skipIf_beq_pc_toNat (s : State) (a b : Byte) :
    (s.skipIf (a == b)).pc.toNat = (s.pc.toNat + if a.toNat = b.toNat then 4 else 2) % 65536 := by
  simp only [skipIf_pc_toNat, beq_iff_eq, BitVec.toNat_inj]

/-- Where a skip on inequality goes. -/
theorem State.skipIf_bne_pc_toNat (s : State) (a b : Byte) :
    (s.skipIf (a != b)).pc.toNat = (s.pc.toNat + if a.toNat = b.toNat then 2 else 4) % 65536 := by
  simp only [skipIf_pc_toNat, bne_iff_ne, BitVec.toNat_inj, ite_not]

theorem unchangedBut_skipIf (s : State) (c : Bool) : UnchangedBut [.pc] s (s.skipIf c) :=
  unchangedBut_setPc (by decide) s _

/-! ## Return and call (R102, R104) -/

theorem exec_ret_of_empty {s : State} (h : s.sp.toNat = 0) : exec .ret s = .fault (.stackUnderflow s.pc) := by
  obtain ⟨-, he⟩ | ⟨h0, -⟩ | ⟨hsp, -⟩ := execRet_cases s
  · exact he
  · exact absurd (BitVec.eq_of_toNat_eq h) h0
  · omega

/-- With 1 to 16 return addresses on the stack RET pops the top one. -/
theorem exec_ret_of_nonempty {s : State} (h1 : 1 ≤ s.sp.toNat) (h16 : s.sp.toNat ≤ 16) :
    ∃ a, s.stackAt (s.sp.toNat - 1) = some a ∧ exec .ret s = .next ((s.setSp (s.sp - 1)).setPc a) := by
  obtain ⟨h0, -⟩ | ⟨-, hpop⟩ | ⟨hsp, -⟩ := execRet_cases s
  · rw [h0] at h1
    contradiction
  · exact hpop
  · omega

theorem exec_call_of_full {s : State} (nnn : Addr) (h : s.sp.toNat = 16) :
    exec (.call nnn) s = .fault (.stackOverflow s.pc) := by
  obtain ⟨-, he⟩ | ⟨hsp, -⟩ | ⟨hsp, -⟩ := execCall_cases nnn s
  · exact he
  · omega
  · omega

theorem exec_call_of_lt {s : State} (nnn : Addr) (h : s.sp.toNat < 16) :
    exec (.call nnn) s = .next ((s.push (s.pc + 2)).setPc (target nnn)) := by
  obtain ⟨hsp, -⟩ | ⟨-, he⟩ | ⟨hsp, -⟩ := execCall_cases nnn s
  · omega
  · exact he
  · omega

/-- A call that answers a next state had room on the stack. -/
theorem exec_call_next {nnn : Addr} {s t : State} (h : exec (.call nnn) s = .next t) :
    s.sp.toNat < 16 ∧ t = (s.push (s.pc + 2)).setPc (target nnn) := by
  obtain ⟨-, he⟩ | ⟨hlt, he⟩ | ⟨-, he⟩ := execCall_cases nnn s <;> cases he.symm.trans h
  exact ⟨hlt, rfl⟩

/-- A stack pointer below 16 does not wrap when it is raised (R28). -/
theorem sp_add_one_toNat {s : State} (h : s.sp.toNat < 16) : (s.sp + 1).toNat = s.sp.toNat + 1 :=
  BitVec.toNat_add_of_lt (Nat.lt_trans (Nat.succ_lt_succ h) (by decide))

end Sys2Proof.Machine

namespace Sys2Proof.Proofs

open Sys2Proof.Machine

/-- Settles O14: RET changes SP and PC alone, so every stack entry, the popped one too, keeps its value. -/
theorem retPopsOrUnderflows : Obligations.RetPopsOrUnderflows := by
  intro s
  refine ⟨exec_ret_of_empty, fun h1 h16 => ?_⟩
  obtain ⟨a, htop, he⟩ := exec_ret_of_nonempty h1 h16
  exact ⟨_, he, BitVec.toNat_sub_of_le h1, htop, fun _ => rfl,
    (unchangedBut_setSp (by decide) s _).trans (unchangedBut_setPc (by decide) _ a)⟩

/-- Settles O15: CALL below depth 16 is a push of `PC + 2` and a jump. -/
theorem callPushesOrOverflows : Obligations.CallPushesOrOverflows := by
  intro nnn s
  refine ⟨exec_call_of_full nnn, fun hlt => ⟨_, exec_call_of_lt nnn hlt, sp_add_one_toNat hlt, target_toNat nnn,
    ⟨s.pc + 2, ?_, BitVec.toNat_add _ _⟩, fun j hj => ?_,
    (unchangedBut_push (by decide) s _).trans (unchangedBut_setPc (by decide) _ _)⟩⟩
  · rw [State.setPc_stackAt, State.stackAt_push _ _ hlt, if_pos rfl]
  · rw [State.setPc_stackAt, State.stackAt_push _ _ hlt, if_neg hj]

/-- Settles O17: the entry RET pops at `u` is the one at the call's old SP, which still holds what the call pushed. -/
theorem returnGoesBackBehindTheCall : Obligations.ReturnGoesBackBehindTheCall := by
  intro nnn s t u hcall husp hentry
  obtain ⟨hlt, rfl⟩ := exec_call_next hcall
  rw [State.setPc_sp, State.push_sp] at husp
  rw [State.setPc_stackAt, State.stackAt_push _ _ hlt, if_pos rfl] at hentry
  have husp' : u.sp.toNat = s.sp.toNat + 1 := by rw [husp, sp_add_one_toNat hlt]
  obtain ⟨a, htop, he⟩ := exec_ret_of_nonempty (s := u) (by omega) (by omega)
  have ha : a = s.pc + 2 := by
    rw [husp', Nat.add_sub_cancel, hentry] at htop
    exact (Option.some.inj htop).symm
  refine ⟨_, he, ha, ?_⟩
  rw [State.setPc_sp, State.setSp_sp, husp, BitVec.add_sub_cancel]

/-- Settles O13: JP is `setPc` of its zero-extended target. -/
theorem jpSetsPcToTheTarget : Obligations.JpSetsPcToTheTarget := fun nnn s =>
  ⟨_, exec_jp s nnn, target_toNat nnn, unchangedBut_setPc (by decide) s _⟩

/-- Settles O18: each is a skip on the comparison of `V[x]` with the immediate. -/
theorem immediateSkipsTestTheRegister : Obligations.ImmediateSkipsTestTheRegister := fun x nn s =>
  ⟨⟨_, exec_seImm s x nn, s.skipIf_beq_pc_toNat _ _, unchangedBut_skipIf s _⟩,
    ⟨_, exec_sneImm s x nn, s.skipIf_bne_pc_toNat _ _, unchangedBut_skipIf s _⟩⟩

/-- Settles O19: each is a skip on the comparison of the two registers. -/
theorem registerSkipsCompareTheRegisters : Obligations.RegisterSkipsCompareTheRegisters := fun x y s =>
  ⟨⟨_, exec_seReg s x y, s.skipIf_beq_pc_toNat _ _, unchangedBut_skipIf s _⟩,
    ⟨_, exec_sneReg s x y, s.skipIf_bne_pc_toNat _ _, unchangedBut_skipIf s _⟩⟩

/-- Settles O20: the offset is the quirk's register, and the sum does not wrap. -/
theorem jumpWithOffsetAddsTheQuirkRegister : Obligations.JumpWithOffsetAddsTheQuirkRegister := by
  intro x nnn s
  refine ⟨_, exec_jpOff s nnn x, unchangedBut_setPc (by decide) s _, fun hq => ?_, fun hq => ?_⟩
  · rw [State.setPc_pc, target_add_toNat, jumpOffset_legacy hq]
  · rw [State.setPc_pc, target_add_toNat, jumpOffset_modern hq]

/-- Settles O21: the word of SYS is family nibble 0 over the address. -/
theorem sysAlwaysRaisesUnknownOpcode : Obligations.SysAlwaysRaisesUnknownOpcode := fun nnn s =>
  ⟨packNNN 0x0 nnn, exec_sys s nnn, by rw [packNNN_toNat]; simp⟩

end Sys2Proof.Proofs
end

section
/-! PROOFS. Load, arithmetic, logic, shift and random instructions (41_load_arith.md). Each ends with `advance` after a write of
`V[x]`, or of `V[x]` and then VF. What such a write leaves unchanged is said once for each of the two forms; what is left of an
instruction is the number that its result and its flag stand for. -/

namespace Sys2Proof.Machine

/-! ## Frames of the updates of the registers -/

section

variable {parts : List Part}

theorem unchangedBut_setReg (hp : .regs ∈ parts) (s : State) (x : Nibble) (b : Byte) :
    UnchangedBut parts s (s.setReg x b) :=
  { UnchangedBut.refl parts s with regs := fun hn => absurd hp hn }

theorem unchangedBut_setRegFlag (hp : .regs ∈ parts) (s : State) (x : Nibble) (p : Byte × Bool) :
    UnchangedBut parts s (s.setRegFlag x p) :=
  (unchangedBut_setReg hp s x p.1).trans (unchangedBut_setReg hp _ regF (flagByte p.2))

theorem unchangedBut_countDraw (hp : .draws ∈ parts) (s : State) : UnchangedBut parts s s.countDraw :=
  { UnchangedBut.refl parts s with draws := fun hn => absurd hp hn }

theorem unchangedBut_advance (hp : .pc ∈ parts) (s : State) : UnchangedBut parts s s.advance :=
  unchangedBut_setPc hp s _

end

/-! ## What an instruction that writes registers leaves behind (R122) -/

theorem State.advance_pc_toNat (s : State) : s.advance.pc.toNat = (s.pc.toNat + 2) % 65536 :=
  BitVec.toNat_add _ _

theorem State.reg_setReg_self (s : State) (x : Nibble) (b : Byte) : (s.setReg x b).reg x = b := by
  rw [reg_setReg, if_pos rfl]

theorem State.reg_setReg_of_ne (s : State) {x k : Nibble} (b : Byte) (h : k ≠ x) : (s.setReg x b).reg k = s.reg k := by
  rw [reg_setReg, if_neg h]

theorem setReg_advance_frame (s : State) (x : Nibble) (b : Byte) :
    (∀ k, k ≠ x → (s.setReg x b).advance.reg k = s.reg k) ∧
    (s.setReg x b).advance.pc.toNat = (s.pc.toNat + 2) % 65536 ∧
    UnchangedBut [.regs, .pc] s (s.setReg x b).advance :=
  ⟨fun _ hk => s.reg_setReg_of_ne b hk, State.advance_pc_toNat _,
    (unchangedBut_setReg (by decide) s x b).trans (unchangedBut_advance (by decide) _)⟩

/-- An instruction that writes `V[x]` and then the flag does what its result and its flag, as numbers, say. -/
theorem setRegFlag_advance_spec (s : State) (x : Nibble) {p : Byte × Bool} {result flag : Nat}
    (hresult : p.1.toNat = result) (hflag : (flagByte p.2).toNat = flag) :
    (x ≠ regF → ((s.setRegFlag x p).advance.reg x).toNat = result) ∧
    ((s.setRegFlag x p).advance.reg regF).toNat = flag ∧
    (∀ k, k ≠ x → k ≠ regF → (s.setRegFlag x p).advance.reg k = s.reg k) ∧
    (s.setRegFlag x p).advance.pc.toNat = (s.pc.toNat + 2) % 65536 ∧
    UnchangedBut [.regs, .pc] s (s.setRegFlag x p).advance := by
  refine ⟨fun hx => ?_, ?_, fun k hx hf => ?_, State.advance_pc_toNat _,
    (unchangedBut_setRegFlag (by decide) s x p).trans (unchangedBut_advance (by decide) _)⟩
  · rw [State.advance_reg, State.reg_setRegFlag, if_neg hx, if_pos rfl, hresult]
  · rw [State.advance_reg, State.reg_setRegFlag, if_pos rfl, hflag]
  · rw [State.advance_reg, State.reg_setRegFlag, if_neg hf, if_neg hx]

/-! ## Results and flags as numbers (R121, R131 to R137) -/

theorem flagByte_decide_toNat (c : Prop) [Decidable c] : (flagByte (decide c)).toNat = if c then 1 else 0 := by
  simp only [flagByte_toNat, decide_eq_true_eq]

theorem flagByte_getLsbD_toNat (b : Byte) (i : Nat) : (flagByte (b.getLsbD i)).toNat = b.toNat / 2 ^ i % 2 := by
  rw [BitVec.getLsbD, Nat.testBit_eq_decide_div_mod_eq, flagByte_decide_toNat]
  split <;> omega

theorem addModulo_toNat (a b : Byte) : (addModulo a b).toNat = (a.toNat + b.toNat) % 256 :=
  BitVec.toNat_ofNat _ _

theorem addWithCarry_toNat (a b : Byte) : (addWithCarry a b).1.toNat = (a.toNat + b.toNat) % 256 :=
  BitVec.toNat_ofNat _ _

/-- The true difference may be negative; its low 8 bits are those of 256 more, which is a natural number. -/
theorem subNoBorrow_toNat (a b : Byte) : (subNoBorrow a b).1.toNat = (a.toNat + 256 - b.toNat) % 256 := by
  have hb : b.toNat < 256 := b.isLt
  simp only [subNoBorrow, BitVec.toNat_ofInt]
  omega

theorem shiftRightOut_toNat (b : Byte) : (shiftRightOut b).1.toNat = b.toNat / 2 :=
  (BitVec.toNat_ushiftRight b 1).trans (Nat.shiftRight_eq_div_pow _ _)

theorem shiftLeftOut_toNat (b : Byte) : (shiftLeftOut b).1.toNat = b.toNat * 2 % 256 :=
  BitVec.toNat_shiftLeft.trans (by rw [Nat.shiftLeft_eq])

/-- The bit that a right shift drops is bit 0. -/
theorem shiftRightOut_flag_toNat (b : Byte) : (flagByte (shiftRightOut b).2).toNat = b.toNat % 2 := by
  rw [shiftRightOut, flagByte_getLsbD_toNat, pow_zero, Nat.div_one]

/-- The bit that a left shift drops is bit 7, the highest of a byte. -/
theorem shiftLeftOut_flag_toNat (b : Byte) : (flagByte (shiftLeftOut b).2).toNat = b.toNat / 128 := by
  have hb : b.toNat < 256 := b.isLt
  rw [shiftLeftOut, flagByte_getLsbD_toNat]
  omega

/-- R134: the quirk names the source of a shift. -/
theorem shiftSource_eq {s : State} {x y : Nibble} {src : Byte}
    (h : (s.cfg.quirk = .legacy ∧ src = s.reg y) ∨ (s.cfg.quirk = .modern ∧ src = s.reg x)) :
    shiftSource s x y = src := by
  obtain ⟨hq, rfl⟩ | ⟨hq, rfl⟩ := h <;> simp only [shiftSource, hq]

end Sys2Proof.Machine

namespace Sys2Proof.Proofs

open Sys2Proof.Machine

/-- Settles O24: `V[x]` and then VF receive the sum and its carry. -/
theorem addSetsSumAndCarry : Obligations.AddSetsSumAndCarry := fun x y s =>
  ⟨_, exec_addReg s x y, setRegFlag_advance_spec s x (addWithCarry_toNat _ _) (flagByte_decide_toNat _)⟩

/-- Settles O25: the two subtractions are one operation with its operands exchanged. -/
theorem subtractsSetDifferenceAndNoBorrow : Obligations.SubtractsSetDifferenceAndNoBorrow := fun x y s =>
  ⟨⟨_, exec_subReg s x y, setRegFlag_advance_spec s x (subNoBorrow_toNat _ _) (flagByte_decide_toNat _)⟩,
    ⟨_, exec_subnReg s x y, setRegFlag_advance_spec s x (subNoBorrow_toNat _ _) (flagByte_decide_toNat _)⟩⟩

/-- Settles O26: the quirk's source goes through the right shift. -/
theorem shiftRightTakesTheQuirkSourceAndKeepsTheBitOut :
    Obligations.ShiftRightTakesTheQuirkSourceAndKeepsTheBitOut := by
  intro x y s src hsrc
  obtain rfl := shiftSource_eq hsrc
  exact ⟨_, exec_shrReg s x y, setRegFlag_advance_spec s x (shiftRightOut_toNat _) (shiftRightOut_flag_toNat _)⟩

/-- Settles O27: the quirk's source goes through the left shift. -/
theorem shiftLeftTakesTheQuirkSourceAndKeepsTheBitOut :
    Obligations.ShiftLeftTakesTheQuirkSourceAndKeepsTheBitOut := by
  intro x y s src hsrc
  obtain rfl := shiftSource_eq hsrc
  exact ⟨_, exec_shlReg s x y, setRegFlag_advance_spec s x (shiftLeftOut_toNat _) (shiftLeftOut_flag_toNat _)⟩

/-- Settles O22: each writes `V[x]` alone. -/
theorem immediateLoadAndAddWriteOneRegister : Obligations.ImmediateLoadAndAddWriteOneRegister := by
  intro x nn s
  refine ⟨⟨_, exec_ldImm s x nn, ?_, setReg_advance_frame s x _⟩, ⟨_, exec_addImm s x nn, ?_, setReg_advance_frame s x _⟩⟩
  · rw [State.advance_reg, State.reg_setReg_self]
  · rw [State.advance_reg, State.reg_setReg_self, addModulo_toNat]

/-- Settles O23: each writes `V[x]` alone, and the bits of the result are the library's. -/
theorem moveAndLogicWriteOneRegister : Obligations.MoveAndLogicWriteOneRegister := by
  intro x y s
  refine ⟨⟨_, exec_ldReg s x y, ?_, setReg_advance_frame s x _⟩,
    ⟨_, exec_orReg s x y, fun b => ?_, setReg_advance_frame s x _⟩,
    ⟨_, exec_andReg s x y, fun b => ?_, setReg_advance_frame s x _⟩,
    ⟨_, exec_xorReg s x y, fun b => ?_, setReg_advance_frame s x _⟩⟩
  · rw [State.advance_reg, State.reg_setReg_self]
  · rw [State.advance_reg, State.reg_setReg_self, BitVec.getLsbD_or]
  · rw [State.advance_reg, State.reg_setReg_self, BitVec.getLsbD_and]
  · rw [State.advance_reg, State.reg_setReg_self, BitVec.getLsbD_xor]

/-- Settles O28: `V[x]` receives the masked byte, and one draw is counted. -/
theorem randomByteIsMasked : Obligations.RandomByteIsMasked := by
  intro x nn s
  have hx := s.reg_setReg_self x (Config.randByte s.draws &&& nn)
  refine ⟨_, exec_rnd s x nn, hx, ?_, rfl, fun k hk => s.reg_setReg_of_ne _ hk, State.advance_pc_toNat _, ?_⟩
  · rw [State.advance_reg, State.countDraw_reg, hx, BitVec.and_assoc, BitVec.and_not_self]
    exact BitVec.and_zero
  · exact ((unchangedBut_setReg (by decide) s x _).trans (unchangedBut_countDraw (by decide) _)).trans
      (unchangedBut_advance (by decide) _)

end Sys2Proof.Proofs
end

section
/-! PROOFS. The index register and the instructions that access memory through it (42_index_memory.md). An access to memory
answers a next state exactly when its run of addresses is in range (R57, R153); what it then stores or loads is read off the
laws of the run. -/

namespace Sys2Proof.Machine

section

variable {s t : State} {parts : List Part}

/-! ## Frames of the updates of I, memory and a run of registers -/

theorem unchangedBut_setI (hp : .index ∈ parts) (s : State) (a : Word) : UnchangedBut parts s (s.setI a) :=
  { UnchangedBut.refl parts s with index := fun hn => absurd hp hn }

/-- The registers as a whole: checking a frame against the bytes of a load written out is too costly. -/
theorem unchangedBut_setV (hp : .regs ∈ parts) (s : State) (v : Vector Byte 16) : UnchangedBut parts s { s with v := v } :=
  { UnchangedBut.refl parts s with regs := fun hn => absurd hp hn }

theorem unchangedBut_setRegsFrom0 (hp : .regs ∈ parts) (s : State) (bs : List Byte) :
    UnchangedBut parts s (s.setRegsFrom0 bs) :=
  unchangedBut_setV hp s _

theorem unchangedBut_setBytes (hp : .mem ∈ parts) (s : State) (as : List Nat) (vs : List Byte) :
    UnchangedBut parts s (s.setBytes as vs) := by
  rw [State.setBytes_eq]
  exact { UnchangedBut.refl parts s with mem := fun hn => absurd hp hn }

theorem unchangedBut_of_writeRun {base : Nat} {vs : List Byte} (hp : .mem ∈ parts) (h : s.writeRun base vs = .ok t) :
    UnchangedBut parts s t := by
  obtain ⟨as, -, rfl⟩ := State.setBytes_of_writeRun h
  exact unchangedBut_setBytes hp s as vs

/-! ## The values written to I (R146, R147, R148, R150) -/

/-- An instruction that writes I does what the number written says. -/
theorem setI_advance_spec (s : State) {a : Word} {n : Nat} (ha : a.toNat = n) :
    (s.setI a).advance.i.toNat = n ∧ (s.setI a).advance.pc.toNat = (s.pc.toNat + 2) % 65536 ∧
    UnchangedBut [.index, .pc] s (s.setI a).advance :=
  ⟨ha, State.advance_pc_toNat _, (unchangedBut_setI (by decide) s a).trans (unchangedBut_advance (by decide) _)⟩

theorem add_setWidth_toNat (a : Word) (b : Byte) : (a + b.setWidth 16).toNat = (a.toNat + b.toNat) % 65536 := by
  rw [BitVec.toNat_add, BitVec.toNat_setWidth_of_le (by decide)]

theorem lowNibble_toNat (b : Byte) : (lowNibble b).toNat = b.toNat % 16 := by
  simp [lowNibble]

/-- No glyph lies above the first 512 addresses (R7), so its address does not wrap. -/
theorem glyphAddr_toNat (cfg : Config) (d : Nibble) : (glyphAddr cfg d).toNat = cfg.fontBase.val + 5 * d.toNat := by
  have hbase : cfg.fontBase.val < 433 := cfg.fontBase.isLt
  have hd : d.toNat < 16 := d.isLt
  rw [glyphAddr, BitVec.toNat_ofNat]
  omega

theorem indexAfterRun_legacy_toNat {x : Nibble} (h : s.cfg.quirk = .legacy) :
    (indexAfterRun s x).toNat = (s.i.toNat + x.toNat + 1) % 65536 := by
  simp only [indexAfterRun, h, BitVec.toNat_add, BitVec.toNat_ofNat]
  omega

theorem indexAfterRun_modern {x : Nibble} (h : s.cfg.quirk = .modern) : indexAfterRun s x = s.i := by
  simp only [indexAfterRun, h]

/-! ## Runs in range (R56, R57) -/

theorem runInRange_iff {n : Nat} : RunInRange s n ↔ ∀ k, k < n → ∃ a, effAddr s.cfg (s.i.toNat + k) = .ok a := by
  constructor
  · rintro (hwrap | hle) k hk
    · exact ⟨_, effAddr_wrap hwrap _⟩
    · exact ⟨_, effAddr_of_le (hle k hk)⟩
  · intro h
    refine or_iff_not_imp_left.2 fun hwrap k hk => ?_
    obtain ⟨a, ha⟩ := h k hk
    exact (effAddr_ok ha).2.resolve_left hwrap

theorem exec_ldBVx_of_runInRange {x : Nibble} (h : RunInRange s 3) :
    ∃ u, s.writeRun s.i.toNat (decimalDigits (s.reg x)) = .ok u ∧ exec (.ldBVx x) s = .next u.advance := by
  obtain ⟨u, hu⟩ := State.writeRun_exists (vs := decimalDigits (s.reg x)) (runInRange_iff.1 h)
  exact ⟨u, hu, by rw [exec_ldBVx, execLdBVx, hu]⟩

theorem exec_stRegs_of_runInRange {x : Nibble} (h : RunInRange s (x.toNat + 1)) :
    ∃ u, s.writeRun s.i.toNat (s.regsUpTo x) = .ok u ∧
      exec (.stRegs x) s = .next (u.setI (indexAfterRun s x)).advance := by
  rw [← State.regsUpTo_length s x] at h
  obtain ⟨u, hu⟩ := State.writeRun_exists (runInRange_iff.1 h)
  exact ⟨u, hu, by rw [exec_stRegs, execStRegs, hu]⟩

theorem exec_ldRegs_of_runInRange {x : Nibble} (h : RunInRange s (x.toNat + 1)) :
    ∃ bs, s.readRun s.i.toNat (x.toNat + 1) = .ok bs ∧
      exec (.ldRegs x) s = .next ((s.setRegsFrom0 bs).setI (indexAfterRun s x)).advance := by
  obtain ⟨bs, hbs⟩ := State.readRun_exists (runInRange_iff.1 h)
  exact ⟨bs, hbs, by rw [exec_ldRegs, execLdRegs, hbs]⟩

/-- A store that answers a next state had its run in range: a bad address would have been raised (R153). -/
theorem runInRange_of_exec_stRegs {x : Nibble} (h : exec (.stRegs x) s = .next t) : RunInRange s (x.toNat + 1) := by
  cases has : effAddrs s.cfg s.i.toNat (x.toNat + 1) with
  | error f => cases (exec_stRegs_of_effAddrs_error has).symm.trans h
  | ok as =>
    obtain ⟨-, hget⟩ := (effAddrs_ok_iff _ _ _).1 has
    exact runInRange_iff.2 fun k hk => ⟨_, hget k hk⟩

/-! ## What a run writes and reads (R149, R151, R152) -/

/-- A run of writes leaves every byte outside its addresses as it was. -/
theorem State.byteAt_of_writeRun_outside {base n b : Nat} {vs : List Byte} (hn : vs.length = n) (hmax : n ≤ 4096)
    (h : s.writeRun base vs = .ok t) (hb : ∀ k, k < n → effAddr s.cfg (base + k) ≠ .ok b) :
    t.byteAt b = s.byteAt b := by
  subst hn
  obtain ⟨-, -, houtside, -⟩ := State.writeRun_ok hmax h
  exact houtside b hb

/-- The digits of R149 are in their bounds and make up the number. -/
theorem decimalDigits_sum (b : Byte) :
    b.toNat / 10 ^ 2 % 10 ≤ 2 ∧ b.toNat / 10 ^ 1 % 10 ≤ 9 ∧ b.toNat / 10 ^ 0 % 10 ≤ 9 ∧
    b.toNat = 100 * (b.toNat / 10 ^ 2 % 10) + 10 * (b.toNat / 10 ^ 1 % 10) + b.toNat / 10 ^ 0 % 10 := by
  have hb : b.toNat < 256 := b.isLt
  omega

/-- `FX65` leaves the byte at `EA(I + k)` in `V[k]`. -/
theorem reg_of_exec_ldRegs {x k : Nibble} {a : Nat} (h : exec (.ldRegs x) s = .next t) (hk : k.toNat ≤ x.toNat)
    (ha : effAddr s.cfg (s.i.toNat + k.toNat) = .ok a) : t.reg k = s.byteAt a := by
  rw [exec_ldRegs] at h
  obtain ⟨f, -, he⟩ | ⟨bs, hbs, he⟩ := execLdRegs_cases x s <;> cases he.symm.trans h
  obtain ⟨-, hread⟩ := State.readRun_ok hbs
  obtain ⟨a', ha', hget⟩ := hread k.toNat (Nat.lt_succ_of_le hk)
  obtain rfl : a' = a := Except.ok.inj (ha'.symm.trans ha)
  rw [State.advance_reg, State.setI_reg, State.reg_setRegsFrom0, hget, Option.getD_some]

end

end Sys2Proof.Machine

namespace Sys2Proof.Proofs

open Sys2Proof.Machine

/-- Settles O30: the store is in range, so it writes the three digits and then advances. -/
theorem decimalDigitsAreStoredAtI : Obligations.DecimalDigitsAreStoredAtI := by
  intro x s hrun
  obtain ⟨u, hu, he⟩ := exec_ldBVx_of_runInRange (x := x) hrun
  obtain ⟨hd0, hd1, hd2, hsum⟩ := decimalDigits_sum (s.reg x)
  exact ⟨_, _, _, _, he, hd0, hd1, hd2, hsum,
    fun _ => byteAt_of_exec_ldBVx (k := 0) he (by decide),
    fun _ => byteAt_of_exec_ldBVx (k := 1) he (by decide),
    fun _ => byteAt_of_exec_ldBVx (k := 2) he (by decide),
    fun _ => State.byteAt_of_writeRun_outside (t := u) rfl (by decide) hu,
    otherInstructionsAdvanceByTwo _ _ _ he rfl,
    (unchangedBut_of_writeRun (by decide) hu).trans (unchangedBut_advance (by decide) u)⟩

/-- Settles O31: the store is in range, so it writes the registers and then I. -/
theorem registersAreStoredFromI : Obligations.RegistersAreStoredFromI := by
  intro x s hrun
  obtain ⟨u, hu, he⟩ := exec_stRegs_of_runInRange hrun
  have hmax : x.toNat + 1 ≤ 4096 := Nat.le_trans x.isLt (by decide)
  exact ⟨_, he, fun _ _ => byteAt_of_exec_stRegs he,
    fun b hb => State.byteAt_of_writeRun_outside (t := u) (s.regsUpTo_length x) hmax hu
      fun k hk => hb k (Nat.le_of_lt_succ hk),
    indexAfterRun_legacy_toNat, indexAfterRun_modern, otherInstructionsAdvanceByTwo _ _ _ he rfl,
    ((unchangedBut_of_writeRun (by decide) hu).trans (unchangedBut_setI (by decide) u _)).trans
      (unchangedBut_advance (by decide) _)⟩

/-- Settles O32: the load is in range, so it writes the registers up to `V[x]` and then I. -/
theorem registersAreLoadedFromI : Obligations.RegistersAreLoadedFromI := by
  intro x s hrun
  obtain ⟨bs, -, he⟩ := exec_ldRegs_of_runInRange hrun
  exact ⟨_, he, fun _ _ => reg_of_exec_ldRegs he,
    fun _ hk => (effect_of_exec he).reg_eq (Nat.not_le_of_lt hk),
    indexAfterRun_legacy_toNat, indexAfterRun_modern, otherInstructionsAdvanceByTwo _ _ _ he rfl,
    ((unchangedBut_setRegsFrom0 (by decide) s bs).trans (unchangedBut_setI (by decide) _ _)).trans
      (unchangedBut_advance (by decide) _)⟩

/-- Settles O33: the load at `u` has the addresses of the store at `s`, which was in range, and reads what it stored. -/
theorem storedRegistersLoadBack : Obligations.StoredRegistersLoadBack := by
  intro x s t u hst hcfg hi hmem
  have hrun : RunInRange s (x.toNat + 1) := runInRange_of_exec_stRegs hst
  have hrun' : RunInRange u (x.toNat + 1) := by rwa [RunInRange, hcfg, hi]
  obtain ⟨bs, -, hld⟩ := exec_ldRegs_of_runInRange hrun'
  refine ⟨_, hld, fun k hk => ?_⟩
  obtain ⟨a, ha⟩ := runInRange_iff.1 hrun k.toNat (Nat.lt_succ_of_le hk)
  have hau : effAddr u.cfg (u.i.toNat + k.toNat) = .ok a := by rwa [hcfg, hi]
  rw [reg_of_exec_ldRegs hld hk hau, hmem, byteAt_of_exec_stRegs hst hk ha]

/-- Settles O29: each writes one number to I. -/
theorem indexInstructionsWriteIOnly : Obligations.IndexInstructionsWriteIOnly := by
  intro x nnn s
  have hglyph : (glyphAddr s.cfg (lowNibble (s.reg x))).toNat = s.cfg.fontBase.val + 5 * ((s.reg x).toNat % 16) := by
    rw [glyphAddr_toNat, lowNibble_toNat]
  exact ⟨⟨_, exec_ldI s nnn, setI_advance_spec s (target_toNat nnn)⟩,
    ⟨_, exec_addIVx s x, setI_advance_spec s (add_setWidth_toNat _ _)⟩,
    ⟨_, exec_ldFVx s x, setI_advance_spec s hglyph⟩⟩

end Sys2Proof.Proofs
end

section
/-! PROOFS. The display instructions (43_display.md). A draw that answers a next state inverts the pixels of its sprite and
sets VF to its collision, and `SpriteCovers` says which pixels those are; so a draw is one exclusive or per pixel, and two
draws of the same sprite cancel. -/

namespace Sys2Proof.Machine

/-! ## Frames of the updates of the display -/

theorem unchangedBut_setDisplay {parts : List Part} (hp : .display ∈ parts) (s : State) (d : Display) :
    UnchangedBut parts s (s.setDisplay d) :=
  { UnchangedBut.refl parts s with display := fun hn => absurd hp hn }

theorem unchangedBut_setFlag {parts : List Part} (hp : .regs ∈ parts) (s : State) (c : Bool) :
    UnchangedBut parts s (s.setFlag c) :=
  unchangedBut_setReg hp s regF (flagByte c)

/-! ## What a sprite covers (R162, R164) -/

section

variable {s t u : State} {x y n : Nibble}

/-- The rows that a draw reads put their 1 bits on the pixels that the sprite covers. -/
theorem mem_spritePixels_iff_spriteCovers {rows : List Byte} (h : s.readRun s.i.toNat n.toNat = .ok rows) (px : Fin 64)
    (py : Fin 32) :
    (px, py) ∈ spritePixels (s.reg x).toNat (s.reg y).toNat 0 rows ↔ SpriteCovers s x y n px py := by
  obtain ⟨hlen, hread⟩ := State.readRun_ok h
  rw [mem_spritePixels]
  constructor
  · rintro ⟨r, c, b, hb, hc, hbit, hx, hy⟩
    have hr : r < n.toNat := hlen ▸ (List.getElem?_eq_some_iff.1 hb).1
    obtain ⟨a, ha, hget⟩ := hread r hr
    obtain rfl : b = s.byteAt a := Option.some.inj (hb.symm.trans hget)
    exact ⟨r, c, a, hr, hc, ha, hbit, hx, by rwa [Nat.zero_add] at hy⟩
  · rintro ⟨r, c, a, hr, hc, ha, hbit, hx, hy⟩
    obtain ⟨a', ha', hget⟩ := hread r hr
    obtain rfl : a' = a := Except.ok.inj (ha'.symm.trans ha)
    exact ⟨r, c, s.byteAt a', hget, hc, hbit, hx, by rwa [Nat.zero_add]⟩

/-- The pixels depend on what a draw reads alone: the configuration, I, the registers and memory. -/
theorem spriteCovers_congr (hcfg : u.cfg = s.cfg) (hi : u.i = s.i) (hreg : ∀ k, u.reg k = s.reg k)
    (hmem : ∀ a, u.byteAt a = s.byteAt a) (px : Fin 64) (py : Fin 32) :
    SpriteCovers u x y n px py ↔ SpriteCovers s x y n px py := by
  simp only [SpriteCovers, hcfg, hi, hreg, hmem]

/-! ## What a draw does (R163, R165) -/

theorem exec_drw_of_runInRange (h : RunInRange s n.toNat) : ∃ t, exec (.drw x y n) s = .next t := by
  obtain ⟨rows, hrows⟩ := State.readRun_exists (runInRange_iff.1 h)
  exact ⟨_, by rw [exec_drw, execDrw, hrows]⟩

/-- A draw that answers a next state drew the rows it read. -/
theorem exec_drw_next (h : exec (.drw x y n) s = .next t) :
    ∃ rows, s.readRun s.i.toNat n.toNat = .ok rows ∧
      t = ((s.setDisplay (drawRows (s.reg x).toNat (s.reg y).toNat 0 rows (s.fb, false)).1).setFlag
        (drawRows (s.reg x).toNat (s.reg y).toNat 0 rows (s.fb, false)).2).advance := by
  rw [exec_drw] at h
  obtain ⟨f, -, he⟩ | ⟨rows, hrows, he⟩ := execDrw_cases x y n s <;> cases he.symm.trans h
  exact ⟨rows, hrows, rfl⟩

/-- A draw that answers a next state had its rows in range: a bad address would have been raised. -/
theorem runInRange_of_exec_drw (h : exec (.drw x y n) s = .next t) : RunInRange s n.toNat := by
  obtain ⟨rows, hrows, -⟩ := exec_drw_next h
  obtain ⟨-, hread⟩ := State.readRun_ok hrows
  refine runInRange_iff.2 fun k hk => ?_
  obtain ⟨a, ha, -⟩ := hread k hk
  exact ⟨a, ha⟩

theorem unchangedBut_of_exec_drw (h : exec (.drw x y n) s = .next t) : UnchangedBut [.display, .regs, .pc] s t := by
  obtain ⟨rows, -, rfl⟩ := exec_drw_next h
  exact ((unchangedBut_setDisplay (by decide) s _).trans (unchangedBut_setFlag (by decide) _ _)).trans
    (unchangedBut_advance (by decide) _)

/-- The rows of a draw are fewer than the display's, so no two of their pixels meet. -/
theorem readRun_nibble_length_le {rows : List Byte} (h : s.readRun s.i.toNat n.toNat = .ok rows) : rows.length ≤ 32 := by
  have hn : n.toNat < 16 := n.isLt
  obtain ⟨hlen, -⟩ := State.readRun_ok h
  omega

/-- A draw is one exclusive or per pixel. -/
theorem pixel_of_exec_drw (h : exec (.drw x y n) s = .next t) (px : Fin 64) (py : Fin 32)
    [Decidable (SpriteCovers s x y n px py)] :
    t.pixel px py = (s.pixel px py ^^ decide (SpriteCovers s x y n px py)) := by
  obtain ⟨rows, hrows, rfl⟩ := exec_drw_next h
  obtain ⟨hpixel, -⟩ := drawRows_spec (s.reg x).toNat (s.reg y).toNat rows s.fb (readRun_nibble_length_le hrows)
  rw [← decide_eq_decide.2 (mem_spritePixels_iff_spriteCovers hrows px py)]
  exact hpixel px py

theorem pixel_of_exec_drw_covers (h : exec (.drw x y n) s = .next t) {px : Fin 64} {py : Fin 32}
    (hc : SpriteCovers s x y n px py) : t.pixel px py = !s.pixel px py := by
  classical rw [pixel_of_exec_drw h, decide_eq_true hc, Bool.xor_true]

theorem pixel_of_exec_drw_not_covers (h : exec (.drw x y n) s = .next t) {px : Fin 64} {py : Fin 32}
    (hc : ¬ SpriteCovers s x y n px py) : t.pixel px py = s.pixel px py := by
  classical rw [pixel_of_exec_drw h, decide_eq_false hc, Bool.xor_false]

/-- The flag of a draw is its collision. -/
theorem reg_regF_of_exec_drw (h : exec (.drw x y n) s = .next t) :
    ∃ c, t.reg regF = flagByte c ∧ (c = true ↔ ∃ px py, SpriteCovers s x y n px py ∧ s.pixel px py = true) := by
  obtain ⟨rows, hrows, rfl⟩ := exec_drw_next h
  obtain ⟨-, hcollides⟩ := drawRows_spec (s.reg x).toNat (s.reg y).toNat rows s.fb (readRun_nibble_length_le hrows)
  simp only [mem_spritePixels_iff_spriteCovers hrows] at hcollides
  exact ⟨_, by rw [State.advance_reg, State.reg_setFlag, if_pos rfl], hcollides⟩

theorem flagByte_eq_one_iff {c : Bool} : flagByte c = 1 ↔ c = true := by
  cases c <;> decide

theorem flagByte_eq_zero_iff {c : Bool} : flagByte c = 0 ↔ c ≠ true := by
  cases c <;> decide

/-- R165: VF is 1 exactly when the sprite covers a lit pixel. -/
theorem reg_regF_eq_one_iff (h : exec (.drw x y n) s = .next t) :
    t.reg regF = 1 ↔ ∃ px py, SpriteCovers s x y n px py ∧ s.pixel px py = true := by
  obtain ⟨c, hc, hcollides⟩ := reg_regF_of_exec_drw h
  rw [hc, flagByte_eq_one_iff, hcollides]

/-- R165: VF is 0 exactly when it covers none. -/
theorem reg_regF_eq_zero_iff (h : exec (.drw x y n) s = .next t) :
    t.reg regF = 0 ↔ ¬ ∃ px py, SpriteCovers s x y n px py ∧ s.pixel px py = true := by
  obtain ⟨c, hc, hcollides⟩ := reg_regF_of_exec_drw h
  rw [hc, flagByte_eq_zero_iff, Ne, hcollides]

end

end Sys2Proof.Machine

namespace Sys2Proof.Proofs

open Sys2Proof.Machine

/-- Settles O37: the draw is in range, so it answers a next state, and each clause is a law of such a draw. -/
theorem drawInvertsTheCoveredPixels : Obligations.DrawInvertsTheCoveredPixels := by
  intro x y n s hrun
  obtain ⟨t, h⟩ := exec_drw_of_runInRange (x := x) (y := y) hrun
  exact ⟨t, h, fun _ _ => pixel_of_exec_drw_covers h, fun _ _ => pixel_of_exec_drw_not_covers h,
    fun _ hk => (effect_of_exec h).reg_eq hk, otherInstructionsAdvanceByTwo _ _ _ h rfl, unchangedBut_of_exec_drw h⟩

/-- Settles O38: VF is the collision of the draw. -/
theorem drawCollisionIsALitPixelErased : Obligations.DrawCollisionIsALitPixelErased := fun _ _ _ _ _ h =>
  ⟨(reg_regF_eq_one_iff h).2, (reg_regF_eq_zero_iff h).2⟩

/-- Settles O39: the draw at `u` covers the pixels that the draw at `s` covered, and the two exclusive ors
of a pixel cancel; from a dark display the pixels lit at `u` are the covered ones. -/
theorem drawingTwiceRestoresTheDisplay : Obligations.DrawingTwiceRestoresTheDisplay := by
  intro x y n s t u hst hcfg hi hreg hmem hpixel
  have frame := unchangedBut_of_exec_drw hst
  have hcfg' : u.cfg = s.cfg := hcfg.trans frame.cfg
  have hi' : u.i = s.i := hi.trans (frame.index (by decide))
  have hcovers : ∀ px py, SpriteCovers u x y n px py ↔ SpriteCovers s x y n px py :=
    spriteCovers_congr hcfg' hi' hreg fun a => (hmem a).trans (frame.mem (by decide) a)
  have hrun : RunInRange u n.toNat := by
    rw [RunInRange, hcfg', hi']
    exact runInRange_of_exec_drw hst
  obtain ⟨v, huv⟩ := exec_drw_of_runInRange (x := x) (y := y) hrun
  refine ⟨v, huv, fun px py => ?_, fun hdark => ⟨?_, ?_⟩⟩
  · classical rw [pixel_of_exec_drw huv, hpixel, pixel_of_exec_drw hst, decide_eq_decide.2 (hcovers px py), Bool.xor_assoc,
      Bool.xor_self, Bool.xor_false]
  · rw [reg_regF_eq_zero_iff hst]
    rintro ⟨px, py, -, hlit⟩
    exact Bool.false_ne_true ((hdark px py).symm.trans hlit)
  · rw [reg_regF_eq_one_iff huv]
    refine exists₂_congr fun px py => ?_
    rw [hcovers, hpixel]
    refine (and_iff_left_of_imp fun hc => ?_).symm
    rw [pixel_of_exec_drw_covers hst hc, hdark px py, Bool.not_false]

/-- Settles O36: CLS writes the display, whose pixels are then dark, and PC. -/
theorem clsDarkensEveryPixel : Obligations.ClsDarkensEveryPixel := fun s =>
  ⟨_, exec_cls s, Display.pixel_clear, State.advance_pc_toNat _,
    (unchangedBut_setDisplay (by decide) s _).trans (unchangedBut_advance (by decide) _)⟩

end Sys2Proof.Proofs
end

section
/-! PROOFS. The keypad and timer instructions (44_keypad_timers.md). None can raise an error: the two skips end with `skipIf`, the
timer moves with `advance` after one write, and the key-wait either stays or is a write of `V[x]`. -/

namespace Sys2Proof.Machine

/-! ## Frames of the updates of the timers -/

theorem unchangedBut_setDt {parts : List Part} (hp : .delay ∈ parts) (s : State) (b : Byte) :
    UnchangedBut parts s (s.setDt b) :=
  { UnchangedBut.refl parts s with delay := fun hn => absurd hp hn }

theorem unchangedBut_setSt {parts : List Part} (hp : .sound ∈ parts) (s : State) (b : Byte) :
    UnchangedBut parts s (s.setSt b) :=
  { UnchangedBut.refl parts s with sound := fun hn => absurd hp hn }

/-- R203: the tone is on exactly while the sound timer is not 0. -/
theorem State.tone_eq_true_iff (s : State) : s.tone = true ↔ s.st.toNat ≠ 0 :=
  bne_iff_ne.trans BitVec.toNat_inj.not.symm

/-! ## The key a skip names, and the key a wait stores (R171 to R173) -/

theorem lowNibble_eq_of_toNat {k : Nibble} {b : Byte} (h : k.toNat = b.toNat % 16) : lowNibble b = k :=
  BitVec.eq_of_toNat_eq ((lowNibble_toNat b).trans h.symm)

/-- Of two pressed keys below which none is pressed, neither is below the other. -/
theorem leastKey_unique {s : State} {j k : Nibble} (hj : s.key j = true) (hjmin : ∀ i, i.toNat < j.toNat → s.key i = false)
    (hk : s.key k = true) (hkmin : ∀ i, i.toNat < k.toNat → s.key i = false) : j = k := by
  have hjk : ¬ j.toNat < k.toNat := fun hlt => Bool.false_ne_true ((hkmin j hlt).symm.trans hj)
  have hkj : ¬ k.toNat < j.toNat := fun hlt => Bool.false_ne_true ((hjmin k hlt).symm.trans hk)
  exact BitVec.eq_of_toNat_eq (by omega)

theorem exec_ldVxK_of_no_key {s : State} (x : Nibble) (h : ∀ k, s.key k = false) : exec (.ldVxK x) s = .next s := by
  obtain ⟨-, he⟩ | ⟨k, hk, -⟩ := execLdVxK_cases x s
  · exact he
  · exact absurd ((h k).symm.trans hk) Bool.false_ne_true

theorem exec_ldVxK_of_leastKey {s : State} {k : Nibble} (x : Nibble) (hk : s.key k = true)
    (hmin : ∀ j, j.toNat < k.toNat → s.key j = false) :
    exec (.ldVxK x) s = .next (s.setReg x (BitVec.ofNat 8 k.toNat)).advance := by
  obtain ⟨hnone, -⟩ | ⟨j, hj, hjmin, he⟩ := execLdVxK_cases x s
  · exact absurd ((hnone k).symm.trans hk) Bool.false_ne_true
  · rwa [leastKey_unique hj hjmin hk hmin] at he

/-- Every key number fits a register. -/
theorem keyByte_toNat (k : Nibble) : (BitVec.ofNat 8 k.toNat).toNat = k.toNat :=
  (BitVec.toNat_ofNat _ _).trans (Nat.mod_eq_of_lt (Nat.lt_trans k.isLt (by decide)))

end Sys2Proof.Machine

namespace Sys2Proof.Proofs

open Sys2Proof.Machine

/-- Settles O41: with no key pressed the wait answers the same state; else the key it stores is the least one, as there is only
one such key. -/
theorem keyWaitWaitsOrStoresTheLeastKey : Obligations.KeyWaitWaitsOrStoresTheLeastKey := by
  intro x s
  refine ⟨exec_ldVxK_of_no_key x, fun k hk hmin => ⟨_, exec_ldVxK_of_leastKey x hk hmin, ?_, setReg_advance_frame s x _⟩⟩
  rw [State.advance_reg, State.reg_setReg_self, keyByte_toNat]

/-- Settles O40: both skips test the key of the low nibble, EXA1 on its negation. -/
theorem keySkipsTestTheKey : Obligations.KeySkipsTestTheKey := by
  intro x k s hk
  obtain rfl := lowNibble_eq_of_toNat hk
  refine ⟨⟨_, exec_skp s x, State.skipIf_pc_toNat s _, unchangedBut_skipIf s _⟩,
    ⟨_, exec_sknp s x, ?_, unchangedBut_skipIf s _⟩⟩
  simp only [State.skipIf_pc_toNat, Bool.not_eq_true', ← Bool.not_eq_true, ite_not]

/-- Settles O42: each move is one write and the advance; the tone is read off the sound timer. -/
theorem timerMovesCopyTheByte : Obligations.TimerMovesCopyTheByte := fun x s =>
  ⟨⟨_, exec_ldVxDt s x, s.reg_setReg_self x _, setReg_advance_frame s x _⟩,
    ⟨_, exec_ldDtVx s x, rfl, State.advance_pc_toNat _,
      (unchangedBut_setDt (by decide) s _).trans (unchangedBut_advance (by decide) _)⟩,
    ⟨_, exec_ldStVx s x, rfl, State.tone_eq_true_iff _, State.advance_pc_toNat _,
      (unchangedBut_setSt (by decide) s _).trans (unchangedBut_advance (by decide) _)⟩⟩

end Sys2Proof.Proofs
end

section
/-! PROOFS. Errors and the host's calls (60_exceptions.md). One equivalence carries the errors: `exec_fault_iff` says exactly
when an instruction raises what. It reads the configuration, PC, SP and I alone, which no tick and no key press writes, so an
error repeats. A timer is whatever counts the ticks and is left alone by every instruction but one; that is one induction over
the host calls for both timers. -/

namespace Sys2Proof.Machine

/-! ## The errors of an instruction (R191) -/

/-- How many bytes from I on an instruction accesses (R60). -/
def dataLength : Instr → Nat
  | .drw _ _ n => n.toNat
  | .ldBVx _ => 3
  | .stRegs x | .ldRegs x => x.toNat + 1
  | _ => 0

/-- The table of R191: the error an instruction raises at `s`, with its guard. -/
inductive Raises (s : State) : Instr → Fault → Prop where
  | sys (nnn : Addr) : Raises s (.sys nnn) (.unknownOpcode (encode (.sys nnn)))
  | call (nnn : Addr) : s.sp.toNat = 16 → Raises s (.call nnn) (.stackOverflow s.pc)
  | ret : s.sp.toNat = 0 → Raises s .ret (.stackUnderflow s.pc)
  | access {i : Instr} {f : Fault} : accessesMemory i = true →
      effAddrs s.cfg s.i.toNat (dataLength i) = .error f → Raises s i f

section

variable {s t : State} {i : Instr} {f : Fault}

/-- The arms that can stop have their own lemmas; every other arm answers a next state by definition. -/
theorem raises_of_exec_fault (h : exec i s = .fault f) : Raises s i f := by
  cases i with
  | sys nnn => cases h; exact .sys nnn
  | ret =>
    obtain ⟨h0, he⟩ | ⟨-, a, -, he⟩ | ⟨-, he⟩ := execRet_cases s <;> cases he.symm.trans h
    exact .ret (congrArg BitVec.toNat h0)
  | call nnn =>
    obtain ⟨hfull, he⟩ | ⟨-, he⟩ | ⟨-, he⟩ := execCall_cases nnn s <;> cases he.symm.trans h
    exact .call nnn hfull
  | drw x y n =>
    obtain ⟨g, hg, he⟩ | ⟨rows, -, he⟩ := execDrw_cases x y n s <;> cases he.symm.trans h
    exact .access rfl hg
  | ldBVx x =>
    obtain ⟨g, hg, he⟩ | ⟨t, -, he⟩ := execLdBVx_cases x s <;> cases he.symm.trans h
    exact .access rfl hg
  | stRegs x =>
    obtain ⟨g, hg, he⟩ | ⟨t, -, he⟩ := execStRegs_cases x s <;> cases he.symm.trans h
    exact .access rfl hg
  | ldRegs x =>
    obtain ⟨g, hg, he⟩ | ⟨bs, -, he⟩ := execLdRegs_cases x s <;> cases he.symm.trans h
    exact .access rfl hg
  | ldVxK x => obtain ⟨-, he⟩ | ⟨k, -, -, he⟩ := execLdVxK_cases x s <;> cases he.symm.trans h
  | _ => cases h

theorem exec_of_access_error (hi : accessesMemory i = true)
    (h : effAddrs s.cfg s.i.toNat (dataLength i) = .error f) : exec i s = .fault f := by
  cases i with
  | drw => exact exec_drw_of_effAddrs_error h
  | ldBVx => exact exec_ldBVx_of_effAddrs_error h
  | stRegs => exact exec_stRegs_of_effAddrs_error h
  | ldRegs => exact exec_ldRegs_of_effAddrs_error h
  | _ => cases hi

/-- R191, in both directions. -/
theorem exec_fault_iff : exec i s = .fault f ↔ Raises s i f := by
  refine ⟨raises_of_exec_fault, fun h => ?_⟩
  cases h with
  | sys nnn => exact exec_sys s nnn
  | call nnn hfull => exact exec_call_of_full nnn hfull
  | ret hempty => exact exec_ret_of_empty hempty
  | access hi he => exact exec_of_access_error hi he

/-- The one kind of error of a run of accesses, and when (R190). -/
theorem outOfBounds_of_effAddrs_error {cfg : Config} {base n : Nat} (h : effAddrs cfg base n = .error f) :
    cfg.oob = .fault ∧ ∃ a, 0xFFF < a ∧ f = .outOfBoundsAccess a := by
  obtain ⟨k, -, hk, -⟩ := effAddrs_error n base f h
  obtain ⟨hm, hlt, hf⟩ := effAddr_error hk
  exact ⟨hm, _, hlt, hf⟩

/-! ## The errors of a step (R185, R193) -/

theorem outOfBounds_of_fetch_error (h : fetch s = .error f) :
    s.cfg.oob = .fault ∧ ∃ a, 0xFFF < a ∧ f = .outOfBoundsAccess a := by
  obtain ⟨hm, ⟨hpc, hf⟩ | ⟨-, hf⟩⟩ := fetch_error h
  · exact ⟨hm, _, hpc, hf⟩
  · exact ⟨hm, _, by decide, hf⟩

/-- The words whose step raises `UnknownOpcode` (R187). -/
def RaisesUnknownOpcode (w : Word) : Prop := decode w = .unknown w ∨ ∃ nnn, decode w = .known (.sys nnn)

/-- The errors a step can raise; `LoadError` is not among them. -/
theorem step_fault_kinds (h : step s = .fault f) :
    (∃ w, fetch s = .ok w ∧ RaisesUnknownOpcode w ∧ f = .unknownOpcode w) ∨
    f = .stackOverflow s.pc ∨ f = .stackUnderflow s.pc ∨
    (s.cfg.oob = .fault ∧ ∃ a, 0xFFF < a ∧ f = .outOfBoundsAccess a) := by
  obtain hf | ⟨w, u, hw, hu, rfl⟩ | ⟨w, i, hw, hi, he⟩ := step_fault h
  · exact .inr (.inr (.inr (outOfBounds_of_fetch_error hf)))
  · obtain ⟨rfl, -⟩ := decode_unknown_iff.1 hu
    exact .inl ⟨u, hw, .inl hu, rfl⟩
  · cases exec_fault_iff.1 he with
    | sys nnn => exact .inl ⟨w, hw, .inr ⟨nnn, hi⟩, by rw [(encode_of_decode hi).2]⟩
    | call => exact .inr (.inl rfl)
    | ret => exact .inr (.inr (.inl rfl))
    | access _ hf => exact .inr (.inr (.inr (outOfBounds_of_effAddrs_error hf)))

theorem step_of_raisesUnknownOpcode {w : Word} (hf : fetch s = .ok w) (hw : RaisesUnknownOpcode w) :
    step s = .fault (.unknownOpcode w) := by
  obtain hu | ⟨nnn, hi⟩ := hw
  · exact step_of_unknown hf hu
  · rw [step_of_known hf hi, exec_fault_iff, ← (encode_of_decode hi).2]
    exact .sys nnn

/-! ## An error repeats (R195) -/

theorem Raises.congr (hcfg : t.cfg = s.cfg) (hpc : t.pc = s.pc) (hsp : t.sp = s.sp) (hi : t.i = s.i)
    (h : Raises s i f) : Raises t i f := by
  cases h with
  | sys nnn => exact .sys nnn
  | call nnn hfull => exact hpc ▸ .call nnn (hsp ▸ hfull)
  | ret hempty => exact hpc ▸ .ret (hsp ▸ hempty)
  | access ha he => exact .access ha (by rw [hcfg, hi, he])

theorem fetch_congr (hcfg : t.cfg = s.cfg) (hpc : t.pc = s.pc) (hmem : t.mem = s.mem) : fetch t = fetch s := by
  simp only [fetch, State.byteAt, hcfg, hpc, hmem]

/-- Whether a step raises depends on no register, no stack entry, no timer, no pixel and no key. -/
theorem step_fault_congr (hcfg : t.cfg = s.cfg) (hpc : t.pc = s.pc) (hmem : t.mem = s.mem) (hsp : t.sp = s.sp)
    (hi : t.i = s.i) (h : step s = .fault f) : step t = .fault f := by
  have hfetch : fetch t = fetch s := fetch_congr hcfg hpc hmem
  obtain hf | ⟨w, u, hw, hu, rfl⟩ | ⟨w, i, hw, hd, he⟩ := step_fault h
  · exact step_of_fetch_error (hfetch.trans hf)
  · exact step_of_unknown (hfetch.trans hw) hu
  · rw [step_of_known (hfetch.trans hw) hd]
    exact exec_fault_iff.2 ((exec_fault_iff.1 he).congr hcfg hpc hsp hi)

theorem State.step_fault_after (cs : List HostCall) (h : step s = .fault f) : step (s.after cs) = .fault f :=
  State.after_induction (P := fun u => step u = .fault f) (fun _ _ hf hn => by cases hf.symm.trans hn)
    (fun _ => step_fault_congr rfl rfl rfl rfl rfl) (fun _ _ _ => step_fault_congr rfl rfl rfl rfl rfl) cs s h

/-! ## Loading (R186) -/

theorem loadProgram_fault_iff {bytes : List Byte} :
    loadProgram bytes s = .fault f ↔ bytes.length > progMax ∧ f = .loadError bytes.length := by
  unfold loadProgram
  split
  · next hlong => exact ⟨fun h => by cases h; exact ⟨hlong, rfl⟩, fun ⟨_, hf⟩ => hf ▸ rfl⟩
  · next hfits => exact ⟨nofun, fun ⟨hlong, _⟩ => absurd hlong hfits⟩

end

/-! ## Timers under host calls (R201, R202) -/

/-- A part of the state that a tick counts down and that only the instructions of `sets` write. -/
structure IsTimer (timer : State → Byte) (sets : Instr → Prop) : Prop where
  tick (s : State) : timer s.tick = countDown (timer s)
  setKey (s : State) (k : Nibble) (p : Bool) : timer (s.setKey k p) = timer s
  effect {s t : State} {i : Instr} : Effect s i t → ¬ sets i → timer t = timer s

theorem isTimer_dt : IsTimer State.dt (fun i => ∃ x, i = .ldDtVx x) where
  tick := State.tick_dt
  setKey := State.setKey_dt
  effect he hi := he.dt_eq fun x hx => hi ⟨x, hx⟩

theorem isTimer_st : IsTimer State.st (fun i => ∃ x, i = .ldStVx x) where
  tick := State.tick_st
  setKey := State.setKey_st
  effect he hi := he.st_eq fun x hx => hi ⟨x, hx⟩

theorem nextInstr_of_decode {s : State} {w : Word} {i : Instr} (hf : fetch s = .ok w) (hd : decode w = .known i) :
    nextInstr s = some i := by
  simp only [nextInstr, hf, hd]

/-- What a step did, and that it was the instruction the state was about to run. -/
theorem effect_of_step_nextInstr {s t : State} (h : step s = .next t) : ∃ i, nextInstr s = some i ∧ Effect s i t := by
  obtain ⟨w, i, hw, hd, he⟩ := step_next h
  exact ⟨i, nextInstr_of_decode hw hd, effect_of_exec he⟩

theorem tickCount_cons (c : HostCall) (cs : List HostCall) : tickCount (c :: cs) = tickCount [c] + tickCount cs :=
  List.count_append (l₁ := [c])

section

variable {timer : State → Byte} {sets : Instr → Prop} (ht : IsTimer timer sets)
include ht

/-- One host call takes 1 from a timer if it is a tick, and nothing else; a step that stops leaves the state (R192). -/
theorem IsTimer.call_toNat {s : State} {c : HostCall} (h : c = .step → ∀ i, nextInstr s = some i → ¬ sets i) :
    (timer (s.call c).1).toNat = (timer s).toNat - tickCount [c] := by
  cases c with
  | tick => exact (congrArg BitVec.toNat (ht.tick s)).trans (countDown_toNat _)
  | setKey k p => exact congrArg BitVec.toNat (ht.setKey s k p)
  | step =>
    obtain ⟨t, hst, hc⟩ | ⟨f, -, hc⟩ | ⟨r, -, hc⟩ := State.call_step_cases s <;> rw [hc]
    · obtain ⟨i, hi, he⟩ := effect_of_step_nextInstr hst
      exact congrArg BitVec.toNat (ht.effect he (h rfl i hi))
    · rfl
    · rfl

theorem IsTimer.after_toNat : ∀ (cs : List HostCall) (s : State), NeverRuns sets s cs →
    (timer (s.after cs)).toNat = (timer s).toNat - tickCount cs
  | [], _, _ => rfl
  | c :: cs, s, ⟨hc, hcs⟩ => by
    rw [State.after_cons, IsTimer.after_toNat cs _ hcs, ht.call_toNat hc, tickCount_cons c cs, Nat.sub_sub]

end

end Sys2Proof.Machine

namespace Sys2Proof.Proofs

open Sys2Proof.Machine

/-- Settles O7: of the errors a step can raise, only that of an unknown word or of SYS is `UnknownOpcode`. -/
theorem unknownOpcodeIsRaisedExactly : Obligations.UnknownOpcodeIsRaisedExactly := by
  refine fun s w => ⟨fun h => ?_, fun ⟨hf, hw⟩ => step_of_raisesUnknownOpcode hf hw⟩
  obtain ⟨u, hf, hu, he⟩ | he | he | ⟨-, a, -, he⟩ := step_fault_kinds h <;> cases he
  exact ⟨hf, hu⟩

/-- Settles O16: the table of R191 lists each stack error once, under its guard; the errors of an access are of another
kind. -/
theorem stackErrorsAreRaisedExactly : Obligations.StackErrorsAreRaisedExactly := by
  intro i s a
  rw [exec_fault_iff, exec_fault_iff]
  refine ⟨⟨fun h => ?_, ?_⟩, fun h => ?_, ?_⟩
  · cases h with
    | call nnn hfull => exact ⟨⟨nnn, rfl⟩, hfull, rfl⟩
    | access _ he => obtain ⟨-, b, -, hb⟩ := outOfBounds_of_effAddrs_error he; cases hb
  · rintro ⟨⟨nnn, rfl⟩, hfull, rfl⟩
    exact .call nnn hfull
  · cases h with
    | ret hempty => exact ⟨rfl, hempty, rfl⟩
    | access _ he => obtain ⟨-, b, -, hb⟩ := outOfBounds_of_effAddrs_error he; cases hb
  · rintro ⟨rfl, hempty, rfl⟩
    exact .ret hempty

/-- Settles O46: a load raises on its length alone, and no error of a step is `LoadError`. -/
theorem loadErrorIsRaisedExactlyForLongImages : Obligations.LoadErrorIsRaisedExactlyForLongImages := by
  refine ⟨fun bytes s f => loadProgram_fault_iff, fun s n h => ?_⟩
  obtain ⟨w, -, -, he⟩ | he | he | ⟨-, a, -, he⟩ := step_fault_kinds h <;> cases he

/-- Settles O47: both DT and ST are timers, and a timer counts the ticks over any host calls. -/
theorem timersCountTicksWhateverStepsRun : Obligations.TimersCountTicksWhateverStepsRun :=
  fun s cs => ⟨isTimer_dt.after_toNat cs s, isTimer_st.after_toNat cs s⟩

/-- Settles O49: a step that raises leaves the state, and a tick or a key press writes nothing that an error depends on. -/
theorem anErrorRepeatsForEver : Obligations.AnErrorRepeatsForEver :=
  fun _ _ cs => State.step_fault_after cs

/-- Settles O54: the cases of the table of R191. -/
theorem eachInstructionRaisesOnlyItsError : Obligations.EachInstructionRaisesOnlyItsError := by
  intro i s f h
  cases exec_fault_iff.1 h with
  | sys nnn => exact .inl ⟨⟨nnn, rfl⟩, rfl⟩
  | call nnn => exact .inr (.inl ⟨⟨nnn, rfl⟩, rfl⟩)
  | ret => exact .inr (.inr (.inl ⟨rfl, rfl⟩))
  | access hi he => exact .inr (.inr (.inr ⟨hi, outOfBounds_of_effAddrs_error he⟩))

/-- Settles O55: the fetch and the runs of accesses raise it, both by way of `EA`, which does so in fault mode alone. -/
theorem outOfBoundsOnlyInFaultMode : Obligations.OutOfBoundsOnlyInFaultMode := by
  refine ⟨fun s a h => ?_, fun cfg a hm => effAddr_wrap hm a, fun cfg a hm ha => effAddr_fault hm ha⟩
  obtain ⟨w, -, -, he⟩ | he | he | ⟨hm, b, hb, he⟩ := step_fault_kinds h <;> cases he
  exact ⟨hm, hb⟩

/-- Settles O43: each timer is counted down, which clamps at 0, and a tick is no more than the two timer writes. -/
theorem tickDecrementsBothTimersAndClamps : Obligations.TickDecrementsBothTimersAndClamps := by
  intro s
  have hdt : s.tick.dt.toNat = s.dt.toNat - 1 := countDown_toNat s.dt
  have hst : s.tick.st.toNat = s.st.toNat - 1 := countDown_toNat s.st
  exact ⟨fun _ => hdt, fun h0 => by rw [hdt, h0], fun _ => hst, fun h0 => by rw [hst, h0],
    (unchangedBut_setDt (by decide) s _).trans (unchangedBut_setSt (by decide) _ _)⟩

/-- Settles O44: the flag written is read back at its own key and nowhere else, and it is the only field written. -/
theorem setKeyWritesOneFlag : Obligations.SetKeyWritesOneFlag := fun k p s =>
  ⟨by rw [State.key_setKey, if_pos rfl], fun j hj => by rw [State.key_setKey, if_neg hj], rfl⟩

end Sys2Proof.Proofs
end

section
/-! PROOFS. Loading a program and the conventional end of one (70_reset_and_hazards.md). A load is a run of byte writes, so what a
byte reads as is `State.byteAt_loadBytes`; a jump to its own address writes to PC the value PC has. -/

namespace Sys2Proof.Machine

section

variable {s : State}

/-! ## What a load leaves (R228) -/

/-- The converse of `loadProgram_next`. -/
theorem loadProgram_of_length_le {bytes : List Byte} (h : bytes.length ≤ progMax) :
    loadProgram bytes s = .next (s.loadBytes progBase bytes) :=
  if_neg (Nat.not_lt.2 h)

theorem State.byteAt_loadBytes_image {bs : List Byte} {j : Nat} {b : Byte} (a : Nat) (h : bs[j]? = some b) :
    (s.loadBytes a bs).byteAt (a + j) = b := by
  obtain ⟨hj, -⟩ := List.getElem?_eq_some_iff.1 h
  rw [State.byteAt_loadBytes, if_pos (by omega), Nat.add_sub_cancel_left, h, Option.getD_some]

theorem State.byteAt_loadBytes_outside {bs : List Byte} {a b : Nat} (h : b < a ∨ a + bs.length ≤ b) :
    (s.loadBytes a bs).byteAt b = s.byteAt b := by
  rw [State.byteAt_loadBytes, if_neg (by omega)]

theorem unchangedBut_loadBytes {parts : List Part} (hp : .mem ∈ parts) (s : State) (a : Nat) (bs : List Byte) :
    UnchangedBut parts s (s.loadBytes a bs) := by
  rw [State.loadBytes_eq]
  exact { UnchangedBut.refl parts s with mem := fun hn => absurd hp hn }

/-! ## A jump to its own address (R232) -/

/-- A step at the encoding of a well-formed instruction runs that instruction. -/
theorem step_of_fetch_encode {i : Instr} (hf : fetch s = .ok (encode i)) (hi : i.wf = true) : step s = exec i s :=
  step_of_known hf (decode_encode hi)

/-- Writing to PC its own value changes nothing. -/
@[simp] theorem State.setPc_self (s : State) : s.setPc s.pc = s := rfl

theorem exec_jp_of_target_eq_pc {nnn : Addr} (h : target nnn = s.pc) : exec (.jp nnn) s = .next s := by
  rw [exec_jp, execJp, h, State.setPc_self]

end

end Sys2Proof.Machine

namespace Sys2Proof.Proofs

open Sys2Proof.Machine

/-- Settles O45: the image fits, so the load writes its bytes from 0x200 on, and the writes change memory alone. -/
theorem loadProgramCopiesTheImage : Obligations.LoadProgramCopiesTheImage := fun bytes s hlen =>
  ⟨s.loadBytes progBase bytes, loadProgram_of_length_le hlen, fun _ _ => State.byteAt_loadBytes_image progBase,
    fun _ => State.byteAt_loadBytes_outside, unchangedBut_loadBytes (by decide) s progBase bytes⟩

/-- Settles O50: the step runs the jump, whose target is the value PC has. -/
theorem jumpToSelfIsAFixedPoint : Obligations.JumpToSelfIsAFixedPoint := by
  rintro s ⟨nnn, hfetch, htarget⟩
  rw [step_of_fetch_encode hfetch rfl, exec_jp_of_target_eq_pc htarget]

end Sys2Proof.Proofs
end
